-- ==== Sys2Proof/Word.lean ====
section
/-! DEFINITION. The word types of the CORE (spec/00_scope.md R7, R8; spec/30_encoding.md R71). -/

namespace Sys2Proof

/-- A byte is 8 bits (R7). -/
abbrev Byte := BitVec 8

/-- A word, a host-visible register and a host bus transfer are 32 bits (R6 REG_BITS, R7). -/
abbrev Word := BitVec 32

/-- A data-memory address is 64 bits (R6 ADDR_BITS). -/
abbrev Addr := BitVec 64

/-- An offset into the 256-byte register space (R26). -/
abbrev Offset := BitVec 8

/-- A bus transaction `T = {we, offset, wdata}`: 41 bits (R71). -/
abbrev Transaction := BitVec 41

end Sys2Proof
end

