-- ==== Sys2Proof/Syntax.lean ====
section
/-! DEFINITION. The instructions of spec/opcode_table.json, their two encoded forms (spec/30_encoding.md R70) and the names of the
register map (spec/10_state.md R26). -/

namespace Sys2Proof

/-- One constructor per row of spec/opcode_table.json. DECRYPT is a second name of ENCRYPT (R79). -/
inductive Instr where
  /-- `WR offset, value`: a host write of a register offset (R165). -/
  | wr (offset : Offset) (value : Word)
  /-- `RD offset`: a host read of a register offset (R166). -/
  | rd (offset : Offset)
  /-- The command ENCRYPT, also named DECRYPT (R122, R123). -/
  | encrypt
  /-- The command TAG (R145). -/
  | tag
  /-- The command VERIFY (R147). -/
  | verify
  /-- The command CLEAR (R167). -/
  | clear
  deriving DecidableEq, Repr

/-- What a command word decodes to: one of four commands, or Illegal (R75). -/
inductive CmdWord where
  | encrypt
  | tag
  | verify
  | clear
  /-- The rejection of every other word (R74). -/
  | illegal
  deriving DecidableEq, Repr

/-- An encoded instruction: "two encodings, one inside the other" (R70). -/
inductive Encoded where
  /-- Format BUS: a 41-bit bus transaction (R71). -/
  | bus (t : Transaction)
  /-- Format CMD: a 32-bit command word, written to offset 0x00 (R72). -/
  | cmd (c : Word)
  deriving DecidableEq, Repr

/-- The registers of the host-visible register file (R26). -/
inductive Reg where
  | cmd
  | status
  | keyLen
  | nonceLen
  | bufAddrLo
  | bufAddrHi
  | bufLenLo
  | bufLenHi
  | key (j : Fin 8)
  | nonce (j : Fin 3)
  | tagIn (j : Fin 4)
  | tagOut (j : Fin 4)
  /-- Offsets 0x4C, 0x70 to 0xFC and every offset that is not a multiple of 4 (R37). -/
  | reserved
  deriving DecidableEq, Repr

end Sys2Proof
end

