-- ==== Sys2Proof/WellFormed.lean ====
section
/-! DEFINITION. Which encoded forms are canonical (spec/30_encoding.md R71, R72, R74). An `Instr` needs no check of its own: its
offset is 8 bits and its value 32 bits by type, and every offset and value is legal (R37, R55, R75). -/

namespace Sys2Proof

/-- A bus transaction is canonical when it is a write, or a read whose wdata is 0 (R71: "written as 0 in the
canonical encoding of a read"). -/
def busWellFormed (t : Transaction) : Bool :=
  t.getLsbD 40 || t.extractLsb' 0 32 == 0#32

/-- The reserved bits 31:8 of a command word are 0 (R72). -/
def rsvzIsZero (c : Word) : Bool :=
  c.extractLsb' 8 24 == 0#24

/-- The operation code is one of 0x01 to 0x04 (R73, R74). -/
def opcIsCommand (c : Word) : Bool :=
  0x01#8 ≤ c.extractLsb' 0 8 && c.extractLsb' 0 8 ≤ 0x04#8

/-- The encodings that an instruction has: canonical bus transactions and the four command words. -/
def Encoded.wellFormed : Encoded → Bool
  | .bus t => busWellFormed t
  | .cmd c => rsvzIsZero c && opcIsCommand c

end Sys2Proof
end

