-- ==== Sys2Proof/Decode.lean ====
section
/-! DEFINITION. Decoding and encoding of bus transactions and command words (spec/30_encoding.md), and of register offsets
(spec/10_state.md R26). Decoding is total (R75). -/

namespace Sys2Proof

/-- Field we, bit 40 of a transaction (R71). -/
def busWe (t : Transaction) : Bool := t.getLsbD 40

/-- Field offset, bits 39:32 (R71). -/
def busOffset (t : Transaction) : Offset := t.extractLsb' 32 8

/-- Field wdata, bits 31:0 (R71). -/
def busWdata (t : Transaction) : Word := t.extractLsb' 0 32

/-- Every 41-bit T decodes to exactly one of WR or RD (R71, R75). A read ignores wdata. -/
def decodeBus (t : Transaction) : Instr :=
  if busWe t then .wr (busOffset t) (busWdata t) else .rd (busOffset t)

/-- Field RSVZ, bits 31:8 of a command word (R72). -/
def cmdRsvz (c : Word) : BitVec 24 := c.extractLsb' 8 24

/-- Field OPC, bits 7:0 of a command word (R72). -/
def cmdOpc (c : Word) : BitVec 8 := c.extractLsb' 0 8

/-- `decode_cmd` of R75. -/
def decodeCmd (c : Word) : CmdWord :=
  if cmdRsvz c ≠ 0 then .illegal
  else if cmdOpc c = 0x01 then .encrypt
  else if cmdOpc c = 0x02 then .tag
  else if cmdOpc c = 0x03 then .verify
  else if cmdOpc c = 0x04 then .clear
  else .illegal

/-- The instruction a decoded command word names; Illegal names none (R74). -/
def CmdWord.instr? : CmdWord → Option Instr
  | .encrypt => some .encrypt
  | .tag => some .tag
  | .verify => some .verify
  | .clear => some .clear
  | .illegal => none

/-- The decoder of both formats. -/
def decode : Encoded → Option Instr
  | .bus t => some (decodeBus t)
  | .cmd c => (decodeCmd c).instr?

/-- `T = {we, offset, wdata}`, the most significant field first (R7, R71). -/
def busWord (we : BitVec 1) (offset : Offset) (wdata : Word) : Transaction :=
  we ++ offset ++ wdata

/-- The encoder, from the tables of R71 and R73. -/
def encode : Instr → Encoded
  | .wr offset value => .bus (busWord 1 offset value)
  | .rd offset => .bus (busWord 0 offset 0)
  | .encrypt => .cmd 0x00000001
  | .tag => .cmd 0x00000002
  | .verify => .cmd 0x00000003
  | .clear => .cmd 0x00000004

/-- The bus transaction by which the host presents an encoded instruction: "As a full bus transaction a command is
`T = {1, 0x00, c}`" (R73). -/
def Encoded.transaction : Encoded → Transaction
  | .bus t => t
  | .cmd c => busWord 1 0x00 c

/-- The register map (R26), one row per register, in the order of its table. -/
def registerMap : List (Offset × Reg) :=
  [(0x00, .cmd), (0x04, .status), (0x08, .keyLen), (0x0C, .nonceLen),
   (0x10, .bufAddrLo), (0x14, .bufAddrHi), (0x18, .bufLenLo), (0x1C, .bufLenHi),
   (0x20, .key 0), (0x24, .key 1), (0x28, .key 2), (0x2C, .key 3),
   (0x30, .key 4), (0x34, .key 5), (0x38, .key 6), (0x3C, .key 7),
   (0x40, .nonce 0), (0x44, .nonce 1), (0x48, .nonce 2),
   (0x50, .tagIn 0), (0x54, .tagIn 1), (0x58, .tagIn 2), (0x5C, .tagIn 3),
   (0x60, .tagOut 0), (0x64, .tagOut 1), (0x68, .tagOut 2), (0x6C, .tagOut 3)]

/-- The register at an offset; an offset with no row is reserved (R37). -/
def regAt (offset : Offset) : Reg :=
  (registerMap.lookup offset).getD .reserved

/-- The encoded form of a word of the opcode table with `nbits` bits: a row of 32 bits is a command word (format CMD), a longer one
a bus transaction (format BUS). A word with a bit above its format is none (log 10). -/
def tableEncoded (nbits w : Nat) : Option Encoded :=
  if nbits ≤ 32 then
    if w < 2 ^ 32 then some (.cmd (BitVec.ofNat 32 w)) else none
  else
    if w < 2 ^ 41 then some (.bus (BitVec.ofNat 41 w)) else none

/-- The instruction the decoder reads from a word of the opcode table. -/
def decodeTableWord (nbits w : Nat) : Option Instr :=
  (tableEncoded nbits w).bind decode

end Sys2Proof
end

