-- ==== Sys2Proof/Config.lean ====
section
/-! DEFINITION. What the platform fixes and the spec leaves open (spec/00_scope.md R6, spec/10_state.md R43, R44). The spec leaves no
value free after an instruction, so no opaque constant stands here. -/

namespace Sys2Proof

/-- A range of data-memory addresses `[base, base + size)` that the platform populates with plain memory.
A list of them is the open parameter `dmem_valid` of R6 (log 4). -/
structure Region where
  base : Nat
  size : Nat
  deriving DecidableEq, Repr

/-- The number of data-memory addresses, 2^64 (R44). -/
def Config.dmemSize : Nat := 2 ^ 64

/-- The platform of the reset state: every one of the 2^64 addresses is populated.
DESIGN CHOICE (log 4): the spec leaves `dmem_valid` open. -/
def Config.wholeSpace : List Region := [⟨0, Config.dmemSize⟩]

/-- What a byte of DMEM that nothing has written reads as.
DESIGN CHOICE (log 3): the spec gives no power-on contents of DMEM. -/
def Config.unlistedByte : Byte := 0

end Sys2Proof
end

