-- ==== Sys2Proof/Machine/State.lean ====
section
/-! DEFINITION. The state of the machine (spec/10_state.md), the ways a step can stop, and the state after reset (R42). -/

namespace Sys2Proof.Machine

/-- The four structural errors (R180). Taking one is a next state, never a fault of the model. -/
inductive StructuralError where
  | invalidKeyLength
  | invalidNonceLength
  | counterOverflow
  | illegalCommand
  deriving DecidableEq, Repr

/-- How a command ends (R9, R168 step 3). -/
inductive CommandOutcome where
  /-- Completed by ENCRYPT. -/
  | encrypted
  /-- Completed by TAG, with the computed tag. -/
  | tagged (tag : Vector Byte 16)
  /-- Completed by VERIFY, with the result of the comparison. -/
  | verified (ok : Bool)
  /-- Ended by `raise`. -/
  | error (e : StructuralError)
  /-- CLEAR. -/
  | cleared
  deriving DecidableEq, Repr

/-- The internal state of the engine, never readable by the host (R20 to R25). -/
structure Engine where
  /-- The working registers W[0] to W[15] (R21). -/
  w : Vector Word 16
  /-- The block counter CTR (R23). -/
  ctr : Word
  /-- The keystream block KS (R24). -/
  ks : Vector Byte 64
  /-- PR, the clamped r (R25). -/
  pr : Nat
  /-- PS, the value s (R25). -/
  ps : Nat
  /-- The accumulator ACC, an unbounded integer (R8, R25). -/
  acc : Nat
  /-- TAGC, the computed tag (R25). -/
  tagc : Vector Byte 16
  deriving DecidableEq, Repr

/-- All internal state 0 (R42, R169). -/
def Engine.zero : Engine where
  w := Vector.replicate 16 0
  ctr := 0
  ks := Vector.replicate 64 0
  pr := 0
  ps := 0
  acc := 0
  tagc := Vector.replicate 16 0

/-- The operand registers: what the host writes and a command consumes (R29 to R35). -/
structure OperandRegs where
  /-- KEY_LEN (R29). -/
  keyLen : Word
  /-- NONCE_LEN (R30). -/
  nonceLen : Word
  /-- BUF_ADDR_LO (R31). -/
  bufAddrLo : Word
  /-- BUF_ADDR_HI (R31). -/
  bufAddrHi : Word
  /-- BUF_LEN_LO (R32). -/
  bufLenLo : Word
  /-- BUF_LEN_HI (R32). -/
  bufLenHi : Word
  /-- KEY0 to KEY7 (R33). -/
  key : Vector Word 8
  /-- NONCE0 to NONCE2 (R34). -/
  nonce : Vector Word 3
  /-- TAGIN0 to TAGIN3 (R35). -/
  tagIn : Vector Word 4
  deriving DecidableEq, Repr

/-- All operand registers 0 (R42, R169). -/
def OperandRegs.zero : OperandRegs where
  keyLen := 0
  nonceLen := 0
  bufAddrLo := 0
  bufAddrHi := 0
  bufLenLo := 0
  bufLenHi := 0
  key := Vector.replicate 8 0
  nonce := Vector.replicate 3 0
  tagIn := Vector.replicate 4 0

/-- DMEM (R44) as a list of cells in canonical form. -/
abbrev Memory := List Host.Cell

/-- An input of the machine (R43, R171, R210; log 1, log 8, log 9). -/
inductive Input where
  /-- A bus transaction of the host. -/
  | bus (t : Transaction)
  /-- The platform applies and releases reset while no command is running (R210). -/
  | reset
  /-- The host stores a byte to DMEM by platform means, between commands (R44). -/
  | store (a : Addr) (v : Byte)
  deriving DecidableEq, Repr

/-- The machine: the CORE (eng, opd, status, tagOut), DMEM, the platform's parameter, and the two ends of the host port. -/
structure State where
  /-- Internal state (R20 to R25). -/
  eng : Engine
  /-- Operand registers (R29 to R35). -/
  opd : OperandRegs
  /-- STATUS (R28). -/
  status : Word
  /-- TAGOUT0 to TAGOUT3 (R36). -/
  tagOut : Vector Word 4
  /-- DMEM (R44). -/
  dmem : Memory
  /-- The parameter `dmem_valid` (R6, R43), which no step changes (log 4). -/
  populated : List Region
  /-- The inputs still to come, oldest first (R43; log 1). -/
  pending : List Input
  /-- The values returned to the host by reads so far, oldest first (R71, R171; log 1). -/
  responses : List Word
  deriving DecidableEq, Repr

/-- The machine never faults: every structural error is a next state (R186), every transaction is accepted and every
command terminates (93: "No behaviour of the CORE is `stuck`"). So there is no fault reason (log 18). -/
inductive Fault where
  deriving DecidableEq, Repr

/-- Why a step has no meaning: "a refusal is the model saying nothing, not something the hardware does" (R9). -/
inductive Refusal where
  /-- An instruction without a meaning. Raised by no arm of this model. Safe. -/
  | notModelled (mnemonic : String)
  /-- ENCRYPT, TAG or VERIFY passed its checks and its buffer includes an address where `dmem_valid` is false
  (U6, U7). Raised by `guardedCommand`. Safe: nothing is claimed of what a real bus would do. -/
  | bufferNotPopulated
  /-- The host stores to an address where `dmem_valid` is false (log 9). Raised by `hostStore`. Safe. -/
  | hostStoreNotPopulated
  deriving DecidableEq, Repr

/-- The machine right after reset: every register and all internal state 0 (R42, R210). DMEM lists nothing (log 3), the whole
address space is populated (log 4), and no input is waiting (log 1, log 2). -/
def State.reset : State where
  eng := Engine.zero
  opd := OperandRegs.zero
  status := 0
  tagOut := Vector.replicate 4 0
  dmem := []
  populated := Config.wholeSpace
  pending := []
  responses := []

end Sys2Proof.Machine
end

