-- ==== Sys2Proof/Machine/Operands.lean ====
section
/-! DEFINITION. Byte order, packing and the assembly of a command's operands (spec/20_memory.md R50 to R53, R57; spec/30_encoding.md
R76), and the counting loop that the sequenced operations share (spec/10_state.md R40). -/

namespace Sys2Proof.Machine

/-- `for i = 0 .. n-1`, in ascending order: the loops of R40, whose bounds are fixed before they start. -/
def forUp {α : Type} : Nat → (Nat → α → α) → α → α
  | 0, _, x => x
  | n + 1, body, x => body n (forUp n body x)

/-- `LE32`: the word `b[0] + 2^8 * b[1] + 2^16 * b[2] + 2^24 * b[3]` (R50). -/
def le32 (b0 b1 b2 b3 : Byte) : Word := b3 ++ b2 ++ b1 ++ b0

/-- `le_bytes32`: `(w[7:0], w[15:8], w[23:16], w[31:24])` (R50). -/
def leBytes32 (w : Word) : Vector Byte 4 :=
  #v[w.extractLsb' 0 8, w.extractLsb' 8 8, w.extractLsb' 16 8, w.extractLsb' 24 8]

/-- The sub-string of `len` bytes from byte `lo` on (R7). -/
def slice {n : Nat} (b : Vector Byte n) (lo len : Nat) (h : lo + len ≤ n) : Vector Byte len :=
  Vector.ofFn fun i => b[lo + i.val]'(by omega)

/-- `le_int`: the sum of `b[i] * 2^(8*i)` (R51). -/
def leInt : List Byte → Nat
  | [] => 0
  | b :: bs => b.toNat + 2 ^ 8 * leInt bs

/-- `le_bytes(v, n)`: byte i is `(v div 2^(8*i)) mod 256` (R51). -/
def leBytes (v n : Nat) : Vector Byte n :=
  Vector.ofFn fun i => BitVec.ofNat 8 (v / 2 ^ (8 * i.val) % 256)

/-- The byte string a group of registers carries: `le_bytes32(reg[0]) ++ le_bytes32(reg[1]) ++ ...` (R52). -/
def unpackWords {n : Nat} (regs : Vector Word n) : Vector Byte (4 * n) :=
  Vector.ofFn fun i => (leBytes32 (regs[i.val / 4]'(by omega)))[i.val % 4]

/-- Register j of a group holds `LE32(bytes[4j .. 4j+3])` (R52). -/
def packBytes {n : Nat} (b : Vector Byte (4 * n)) : Vector Word n :=
  Vector.ofFn fun j =>
    le32 (b[4 * j.val]'(by omega)) (b[4 * j.val + 1]'(by omega)) (b[4 * j.val + 2]'(by omega)) (b[4 * j.val + 3]'(by omega))

/-- The 32 key bytes (R52, R76). -/
def keyBytes (o : OperandRegs) : Vector Byte 32 := unpackWords o.key

/-- The 12 nonce bytes (R52, R76). -/
def nonceBytes (o : OperandRegs) : Vector Byte 12 := unpackWords o.nonce

/-- The 16 bytes of the expected tag (R52, R76). -/
def tagInBytes (o : OperandRegs) : Vector Byte 16 := unpackWords o.tagIn

/-- `BUF_ADDR = {reg[BUF_ADDR_HI], reg[BUF_ADDR_LO]}` (R31). -/
def bufAddr (o : OperandRegs) : Addr := o.bufAddrHi ++ o.bufAddrLo

/-- `BUF_LEN = reg[BUF_LEN_HI] * 2^32 + reg[BUF_LEN_LO]` (R32). -/
def bufLen (o : OperandRegs) : Nat := o.bufLenHi.toNat * 2 ^ 32 + o.bufLenLo.toNat

/-- `dmem_addr(i) = (BUF_ADDR + i) mod 2^64` (R57). -/
def dmemAddr (o : OperandRegs) (i : Nat) : Addr := bufAddr o + BitVec.ofNat 64 i

end Sys2Proof.Machine
end

