-- ==== Sys2Proof/Machine/Flags.lean ====
section
/-! DEFINITION. The STATUS register (spec/10_state.md R28) and the result registers each outcome writes (spec/43_host_access.md R168
step 3; spec/60_exceptions.md R180). The CORE has no other flag (R39). -/

namespace Sys2Proof.Machine

/-- STATUS from its fields: ECODE in bits 11:8, VOK bit 2, ERR bit 1, DONE bit 0, all other bits 0 (R28). -/
def statusWord (done err vok : Bool) (ecode : BitVec 4) : Word :=
  0#20 ++ ecode ++ 0#5 ++ BitVec.ofBool vok ++ BitVec.ofBool err ++ BitVec.ofBool done

/-- Field DONE (R28). -/
def statusDone (w : Word) : Bool := w.getLsbD 0

/-- Field ERR (R28). -/
def statusErr (w : Word) : Bool := w.getLsbD 1

/-- Field VOK (R28). -/
def statusVok (w : Word) : Bool := w.getLsbD 2

/-- Field ECODE (R28). -/
def statusEcode (w : Word) : BitVec 4 := w.extractLsb' 8 4

/-- `code(e)` (R180). -/
def errorCode : StructuralError → BitVec 4
  | .invalidKeyLength => 1
  | .invalidNonceLength => 2
  | .counterOverflow => 3
  | .illegalCommand => 4

/-- The STATUS value of each outcome (R168 step 3). -/
def outcomeStatus : CommandOutcome → Word
  | .encrypted => statusWord true false false 0
  | .tagged _ => statusWord true false false 0
  | .verified ok => statusWord true false ok 0
  | .error e => statusWord false true false (errorCode e)
  | .cleared => statusWord false false false 0

/-- TAGOUT0 to TAGOUT3 of each outcome: the tag after a completed TAG, 0 after every other outcome (R36, R168 step 3). -/
def outcomeTagOut : CommandOutcome → Vector Word 4
  | .tagged tag => packBytes tag
  | .encrypted => Vector.replicate 4 0
  | .verified _ => Vector.replicate 4 0
  | .error _ => Vector.replicate 4 0
  | .cleared => Vector.replicate 4 0

end Sys2Proof.Machine
end

