-- ==== Sys2Proof/Machine/Ops.lean ====
section
/-! DEFINITION. The shared operations over memory and registers: `MemRead`, `MemWrite`, `dmem_addr` (spec/20_memory.md R56, R57),
`reg[NAME]` (spec/10_state.md R26 to R38), `raise`, the result write and the completion clear (spec/43_host_access.md R168 to R170,
spec/60_exceptions.md R186), reset (R210). -/

namespace Sys2Proof.Machine

/-! ### One field at a time -/

/-- `W[i] <- ...` for all i, and `KS <- ...` (R95, R103). -/
def setBlock (w : Vector Word 16) (ks : Vector Byte 64) (e : Engine) : Engine := { e with w := w, ks := ks }

/-- `CTR <- v` (R23). -/
def setCtr (v : Word) (e : Engine) : Engine := { e with ctr := v }

/-- `PR <- r`, `PS <- s` (R25). -/
def setOneTimeKey (r s : Nat) (e : Engine) : Engine := { e with pr := r, ps := s }

/-- `ACC <- v` (R25). -/
def setAcc (v : Nat) (e : Engine) : Engine := { e with acc := v }

/-- `TAGC <- v` (R25). -/
def setTagc (v : Vector Byte 16) (e : Engine) : Engine := { e with tagc := v }

/-- The engine's internal state is replaced. -/
def setEng (e : Engine) (s : State) : State := { s with eng := e }

/-- DMEM is replaced. -/
def setDmem (m : Memory) (s : State) : State := { s with dmem := m }

/-- The operand registers are replaced. -/
def setOpd (o : OperandRegs) (s : State) : State := { s with opd := o }

/-! ### Data memory -/

/-- `MemRead(addr, 1)` (R56). An unlisted address reads `Config.unlistedByte` (log 3). -/
def memRead : Memory → Addr → Byte
  | [], _ => Config.unlistedByte
  | (b, v) :: m, a => if b = a.toNat then v else memRead m a

/-- Put a cell in front, unless it holds what an unlisted address reads as. -/
def consCell (a : Addr) (v : Byte) (m : Memory) : Memory :=
  if v = Config.unlistedByte then m else (a.toNat, v) :: m

/-- `MemWrite(addr, 1, v)` (R56), keeping the canonical form. -/
def memWrite : Memory → Addr → Byte → Memory
  | [], a, v => consCell a v []
  | (b, w) :: m, a, v =>
    if a.toNat < b then consCell a v ((b, w) :: m)
    else if a.toNat = b then consCell a v m
    else (b, w) :: memWrite m a v

/-- The canonical form from address `lo` on: addresses strictly rising below 2^64, no cell equal to what an unlisted address reads. -/
def memWfFrom : Nat → Memory → Bool
  | _, [] => true
  | lo, (b, v) :: m =>
    decide (lo ≤ b) && decide (b < Config.dmemSize) && decide (v ≠ Config.unlistedByte) && memWfFrom (b + 1) m

/-- The canonical form of DMEM: equal memories are equal lists. -/
def Memory.wf (m : Memory) : Bool := memWfFrom 0 m

/-- `dmem_valid` (R6): the address lies in a populated region (log 4). -/
def dmemValid (regions : List Region) (a : Addr) : Bool :=
  regions.any fun r => decide (r.base ≤ a.toNat) && decide (a.toNat < r.base + r.size)

/-- `forall i < BUF_LEN, dmem_valid(dmem_addr(i))`, the launch condition of U6. -/
def bufferPopulated (regions : List Region) (o : OperandRegs) : Bool :=
  (List.range (bufLen o)).all fun i => dmemValid regions (dmemAddr o i)

/-! ### The host's view of the registers -/

/-- A host write of an operand register replaces all 32 bits; every other register ignores it (R165, R37, R38). -/
def writeOperand (r : Reg) (v : Word) (o : OperandRegs) : OperandRegs :=
  match r with
  | .keyLen => { o with keyLen := v }
  | .nonceLen => { o with nonceLen := v }
  | .bufAddrLo => { o with bufAddrLo := v }
  | .bufAddrHi => { o with bufAddrHi := v }
  | .bufLenLo => { o with bufLenLo := v }
  | .bufLenHi => { o with bufLenHi := v }
  | .key j => { o with key := o.key.set j v }
  | .nonce j => { o with nonce := o.nonce.set j v }
  | .tagIn j => { o with tagIn := o.tagIn.set j v }
  | .cmd => o
  | .status => o
  | .tagOut _ => o
  | .reserved => o

/-- What a host read of a register returns (R166): CMD, KEY0 to KEY7 and reserved offsets read 0 (R27, R33, R37). -/
def readReg (r : Reg) (s : State) : Word :=
  match r with
  | .cmd => 0
  | .status => s.status
  | .keyLen => s.opd.keyLen
  | .nonceLen => s.opd.nonceLen
  | .bufAddrLo => s.opd.bufAddrLo
  | .bufAddrHi => s.opd.bufAddrHi
  | .bufLenLo => s.opd.bufLenLo
  | .bufLenHi => s.opd.bufLenHi
  | .key _ => 0
  | .nonce j => s.opd.nonce[j]
  | .tagIn j => s.opd.tagIn[j]
  | .tagOut j => s.tagOut[j]
  | .reserved => 0

/-- A read returns `rdata` to the host (R71). -/
def respond (v : Word) (s : State) : State :=
  { s with responses := s.responses ++ [v] }

/-! ### The end of a command -/

/-- Step 3 of `Command`: the result registers (R168, R170). -/
def writeResults (oc : CommandOutcome) (s : State) : State :=
  { s with status := outcomeStatus oc, tagOut := outcomeTagOut oc }

/-- The completion clear: every operand register and every piece of internal state becomes 0; STATUS, TAGOUT and DMEM stay (R169). -/
def completionClear (s : State) : State :=
  { s with opd := OperandRegs.zero, eng := Engine.zero }

/-- Steps 3 and 4 of `Command` (R168). -/
def finish (oc : CommandOutcome) (s : State) : State :=
  completionClear (writeResults oc s)

/-- Taking an exception: `raise e` ends the command with outcome Error(e). Nothing is saved and no handler runs (R186). There is no
return instruction: the state after an error is ready for the next transaction (R188). -/
def raiseError (e : StructuralError) (s : State) : State :=
  finish (.error e) s

/-- Reset: every register and all internal state 0, DMEM neither read nor written (R210, R42). -/
def hardwareReset (s : State) : State :=
  { s with eng := Engine.zero, opd := OperandRegs.zero, status := 0, tagOut := Vector.replicate 4 0 }

/-- The checks of ENCRYPT, TAG and VERIFY on the two lengths, key before nonce (R181, R182, R187). -/
def lengthCheck (o : OperandRegs) : Option StructuralError :=
  if o.keyLen ≠ 32 then some .invalidKeyLength
  else if o.nonceLen ≠ 12 then some .invalidNonceLength
  else none

/-- The shape of ENCRYPT, TAG and VERIFY: a check that fails raises before any work (R185); a checked command whose buffer is not
populated has no meaning (U6); otherwise the work runs and the command completes (R168). -/
def guardedCommand (check : Option StructuralError) (work : State → State) (outcome : State → CommandOutcome) (s : State) :
    Host.Outcome State Fault Refusal :=
  match check with
  | some e => .next (raiseError e s)
  | none =>
    if bufferPopulated s.populated s.opd then .next (finish (outcome (work s)) (work s))
    else .refused .bufferNotPopulated

/-- The host stores a byte to DMEM between commands, by platform means (R44, R63; log 9). -/
def hostStore (a : Addr) (v : Byte) (s : State) : Host.Outcome State Fault Refusal :=
  if dmemValid s.populated a then .next (setDmem (memWrite s.dmem a v) s)
  else .refused .hostStoreNotPopulated

end Sys2Proof.Machine
end

