-- ==== Sys2Proof/Machine/BlockEngine.lean ====
section
/-! DEFINITION. The Block Engine (spec/40_block_engine.md). No operation of this file writes a flag, touches DMEM or raises (R106):
the types say so. -/

namespace Sys2Proof.Machine

/-- Addition modulo 2^32 (R90). -/
def add32 (x y : Word) : Word := x + y

/-- Bit-wise exclusive OR (R91). -/
def xor32 (x y : Word) : Word := x ^^^ y

/-- 32-bit left rotation by a distance 0..31 (R92; the distance is a type of 32 values, U12, log 15). -/
def rotl32 (v : Word) (n : Fin 32) : Word := v.rotateLeft n.val

/-- One stage: add, exclusive OR with the word just written, rotate (R93). -/
def arxStage (x y z : Fin 16) (n : Fin 32) (w : Vector Word 16) : Vector Word 16 :=
  let w1 := w.set x (add32 w[x] w[y])
  let w2 := w1.set z (xor32 w1[z] w1[x])
  w2.set z (rotl32 w2[z] n)

/-- The quarter-round: four stages in sequence (R96). -/
def quarterRound (a b c d : Fin 16) (w : Vector Word 16) : Vector Word 16 :=
  arxStage c d b 7 (arxStage a b d 8 (arxStage c d b 12 (arxStage a b d 16 w)))

/-- Four quarter-rounds on the columns (R97). -/
def columnRound (w : Vector Word 16) : Vector Word 16 :=
  quarterRound 3 7 11 15 (quarterRound 2 6 10 14 (quarterRound 1 5 9 13 (quarterRound 0 4 8 12 w)))

/-- Four quarter-rounds on the diagonals (R98). -/
def diagonalRound (w : Vector Word 16) : Vector Word 16 :=
  quarterRound 3 4 9 14 (quarterRound 2 7 8 13 (quarterRound 1 6 11 12 (quarterRound 0 5 10 15 w)))

/-- Column round first, then diagonal round (R99). -/
def doubleRound (w : Vector Word 16) : Vector Word 16 :=
  diagonalRound (columnRound w)

/-- Ten double-rounds (R100). -/
def rounds20 (w : Vector Word 16) : Vector Word 16 :=
  forUp 10 (fun _ => doubleRound) w

/-- The four ASCII constants "expa" "nd 3" "2-by" "te k" (R5 CONST, R94). -/
def chachaConst : Vector Word 4 :=
  #v[0x61707865, 0x3320646e, 0x79622d32, 0x6b206574]

/-- The initial state S (R94): constants, key, counter, nonce. -/
def initState (key : Vector Byte 32) (nonce : Vector Byte 12) (ctr : Word) : Vector Word 16 :=
  chachaConst ++ (packBytes (n := 8) key) ++ #v[ctr] ++ (packBytes (n := 3) nonce)

/-- `O[i] = add32(S[i], W[i])` (R101). -/
def feedForward (s w : Vector Word 16) : Vector Word 16 :=
  Vector.zipWith add32 s w

/-- The 16 words, each as 4 little-endian bytes, word 0 first (R102). -/
def serialize (o : Vector Word 16) : Vector Byte 64 := unpackWords o

/-- The keystream block as a function of key, nonce and counter (R103). -/
def block (key : Vector Byte 32) (nonce : Vector Byte 12) (ctr : Word) : Vector Byte 64 :=
  serialize (feedForward (initState key nonce ctr) (rounds20 (initState key nonce ctr)))

/-- `Block` on the engine: the working copy and the rounds are left in W (R95, R100), the block in KS; CTR is read (R103, R106). -/
def runBlock (key : Vector Byte 32) (nonce : Vector Byte 12) (e : Engine) : Engine :=
  let s := initState key nonce e.ctr
  let w := rounds20 s
  setBlock w (serialize (feedForward s w)) e

end Sys2Proof.Machine
end

