-- ==== Sys2Proof/Machine/Authenticator.lean ====
section
/-! DEFINITION. The One-Time Authenticator and the commands TAG and VERIFY (spec/42_poly1305.md). All integers are unbounded and
every reduction is written out (R8, R135). -/

namespace Sys2Proof.Machine

/-- P = 2^130 - 5 (R135). -/
def polyP : Nat := 2 ^ 130 - 5

/-- `Clamp` (R137). -/
def clamp (b : Vector Byte 16) : Vector Byte 16 :=
  Vector.ofFn fun i =>
    if i.val ∈ [3, 7, 11, 15] then b[i] &&& 0x0F
    else if i.val ∈ [4, 8, 12] then b[i] &&& 0xFC
    else b[i]

/-- PR and PS from the 32-byte one-time key (the last lines of R136, the first of R143). -/
def loadOneTimeKey (otk : Vector Byte 32) (e : Engine) : Engine :=
  setOneTimeKey (leInt (clamp (slice otk 0 16 (by decide))).toList) (leInt (slice otk 16 16 (by decide)).toList) e

/-- `KeyGen`: one block at counter 0, whose first 32 bytes are the one-time key (R136). -/
def keyGen (key : Vector Byte 32) (nonce : Vector Byte 12) (e : Engine) : Engine :=
  let e1 := runBlock key nonce (setCtr 0 e)
  loadOneTimeKey (slice e1.ks 0 32 (by decide)) e1

/-- `NChunks(L)` (R138). -/
def nChunks (len : Nat) : Nat := len / 16 + (if len % 16 ≠ 0 then 1 else 0)

/-- `m_k`, the length of chunk k (R138). -/
def chunkLen (len k : Nat) : Nat := if k < len / 16 then 16 else len % 16

/-- Chunk k of a message whose byte t is `msg t` (R138, R141). -/
def chunk (msg : Nat → Byte) (len k : Nat) : List Byte :=
  (List.range (chunkLen len k)).map fun i => msg (16 * k + i)

/-- `ChunkValue(c) = le_int(c) + 2^(8*m)` (R139). -/
def chunkValue (c : List Byte) : Nat := leInt c + 2 ^ (8 * c.length)

/-- `Absorb(n)`: add, multiply, reduce (R140). -/
def absorb (n : Nat) (e : Engine) : Engine :=
  setAcc (((e.acc + n) * e.pr) % polyP) e

/-- `Evaluate(L)`: Absorb over the chunks in message order, from ACC = 0 (R141). -/
def evaluate (msg : Nat → Byte) (len : Nat) (e : Engine) : Engine :=
  forUp (nChunks len) (fun k => absorb (chunkValue (chunk msg len k))) (setAcc 0 e)

/-- `Finalize`: add s, keep the low 128 bits, serialise (R142). -/
def finalize (e : Engine) : Engine :=
  setTagc (leBytes ((e.acc + e.ps) % 2 ^ 128) 16) e

/-- `Poly1305Mac(otk, L)` on a message given by its bytes (R143). -/
def poly1305Mac (otk : Vector Byte 32) (msg : Nat → Byte) (len : Nat) (e : Engine) : Engine :=
  finalize (evaluate msg len (loadOneTimeKey otk e))

/-- Message byte t is `MemRead(dmem_addr(t), 1)` (R138). -/
def messageByte (o : OperandRegs) (m : Memory) (t : Nat) : Byte := memRead m (dmemAddr o t)

/-- The work of TAG and of VERIFY: KeyGen, Evaluate, Finalize on the operands sampled at the start (R144, R145, R147). -/
def tagWork (o : OperandRegs) (s : State) : State :=
  setEng (finalize (evaluate (messageByte o s.dmem) (bufLen o) (keyGen (keyBytes o) (nonceBytes o) s.eng))) s

/-- `CtEq`: all 16 byte pairs are combined, with no early exit (R146). -/
def ctEq (x y : Vector Byte 16) : Bool :=
  (List.finRange 16).foldl (fun d i => d ||| (x[i] ^^^ y[i])) 0#8 == 0#8

/-- TAG (R145). -/
def execTag (s : State) : Host.Outcome State Fault Refusal :=
  guardedCommand (lengthCheck s.opd) (tagWork s.opd) (fun t => .tagged t.eng.tagc) s

/-- VERIFY (R147). -/
def execVerify (s : State) : Host.Outcome State Fault Refusal :=
  guardedCommand (lengthCheck s.opd) (tagWork s.opd) (fun t => .verified (ctEq t.eng.tagc (tagInBytes s.opd))) s

end Sys2Proof.Machine
end

