-- ==== Sys2Proof/Machine/StreamCipher.lean ====
section
/-! DEFINITION. The Stream Cipher and the command ENCRYPT, also named DECRYPT (spec/41_stream_cipher.md). -/

namespace Sys2Proof.Machine

/-- `NBlocks(L)` (R120). -/
def nBlocks (len : Nat) : Nat := len / 64 + (if len % 64 ≠ 0 then 1 else 0)

/-- `n_j`, the length of slice j (R120). -/
def sliceLen (len j : Nat) : Nat := if j < len / 64 then 64 else len % 64

/-- `XorFold(j, n)`: exclusive OR of the first n keystream bytes into slice j, in place, byte by byte (R121). -/
def xorFold (o : OperandRegs) (j n : Nat) (ks : Vector Byte 64) (m : Memory) : Memory :=
  forUp n (fun i m => memWrite m (dmemAddr o (64 * j + i)) (memRead m (dmemAddr o (64 * j + i)) ^^^ ks[i]?.getD 0)) m

/-- The largest BUF_LEN that ENCRYPT accepts (R6 MAX_CIPHER_LEN). -/
def maxCipherLen : Nat := 274877906880

/-- The checks of ENCRYPT in order: key length, nonce length, counter overflow (R122, R183, R187). -/
def cipherCheck (o : OperandRegs) : Option StructuralError :=
  match lengthCheck o with
  | some e => some e
  | none => if bufLen o > maxCipherLen then some .counterOverflow else none

/-- One iteration of the block loop: CTR, KS, XorFold (R122, R124). -/
def encryptSlice (o : OperandRegs) (j : Nat) (s : State) : State :=
  let e := runBlock (keyBytes o) (nonceBytes o) (setCtr (BitVec.ofNat 32 (1 + j)) s.eng)
  setDmem (xorFold o j (sliceLen (bufLen o) j) e.ks s.dmem) (setEng e s)

/-- The block loop of ENCRYPT, on the operands sampled at the start (R122). -/
def encryptWork (o : OperandRegs) (s : State) : State :=
  forUp (nBlocks (bufLen o)) (encryptSlice o) s

/-- ENCRYPT (R122). DECRYPT is the same command (R123). -/
def execEncrypt (s : State) : Host.Outcome State Fault Refusal :=
  guardedCommand (cipherCheck s.opd) (encryptWork s.opd) (fun _ => .encrypted) s

end Sys2Proof.Machine
end

