-- ==== Sys2Proof/Machine/HostAccess.lean ====
section
/-! DEFINITION. The bus instructions WR and RD, the command frame and CLEAR (spec/43_host_access.md). -/

namespace Sys2Proof.Machine

/-- CLEAR: STATUS and TAGOUT 0, then the completion clear; no check, no DMEM access (R167). -/
def execClear (s : State) : Host.Outcome State Fault Refusal :=
  .next (finish .cleared s)

/-- `Command(c)`: what a write of c to CMD does (R168). An illegal word is a command that ends with IllegalCommand (R74, R184),
tested before any length (R187). -/
def command (c : Word) (s : State) : Host.Outcome State Fault Refusal :=
  match decodeCmd c with
  | .encrypt => execEncrypt s
  | .tag => execTag s
  | .verify => execVerify s
  | .clear => execClear s
  | .illegal => .next (raiseError .illegalCommand s)

/-- WR: offset 0x00 starts a command, an operand register takes the value, everything else ignores it (R165). -/
def execWr (offset : Offset) (value : Word) (s : State) : Host.Outcome State Fault Refusal :=
  if regAt offset = .cmd then command value s
  else .next (setOpd (writeOperand (regAt offset) value s.opd) s)

/-- RD: returns the register's value and changes nothing (R166). -/
def execRd (offset : Offset) (s : State) : Host.Outcome State Fault Refusal :=
  .next (respond (readReg (regAt offset) s) s)

end Sys2Proof.Machine
end

