-- ==== Sys2Proof/Machine/Dispatch.lean ====
section
/-! DEFINITION. One arm per instruction. -/

namespace Sys2Proof.Machine

def exec (i : Instr) (s : State) : Host.Outcome State Fault Refusal :=
  match i with
  | .wr offset value => Sys2Proof.Machine.execWr offset value s
  | .rd offset => Sys2Proof.Machine.execRd offset s
  | .encrypt => Sys2Proof.Machine.execEncrypt s
  | .tag => Sys2Proof.Machine.execTag s
  | .verify => Sys2Proof.Machine.execVerify s
  | .clear => Sys2Proof.Machine.execClear s

end Sys2Proof.Machine
end

