-- ==== Sys2Proof/Machine/Step.lean ====
section
/-! DEFINITION. One step of the machine: the oldest waiting input is taken and carried out (spec/43_host_access.md R171
`step : State × T -> State × rdata`; log 1). -/

namespace Sys2Proof.Machine

/-- With no input waiting the CORE is idle and nothing changes (R190, R195; log 12). -/
def step (s : State) : Host.Outcome State Fault Refusal :=
  match s.pending with
  | [] => .next s
  | .bus t :: rest => exec (decodeBus t) { s with pending := rest }
  | .reset :: rest => .next (hardwareReset { s with pending := rest })
  | .store a v :: rest => hostStore a v { s with pending := rest }

/-- The input that presents a word of the opcode table to the host port: a command word as the write to CMD that carries it (R73),
a bus transaction as it is (log 2, log 10). -/
def State.withFetchWord (s : State) (nbits w : Nat) : State :=
  match tableEncoded nbits w with
  | some e => { s with pending := .bus e.transaction :: s.pending }
  | none => s

end Sys2Proof.Machine
end

