-- ==== Sys2Proof/Safety.lean ====
section
/-! DEFINITION. What a good state is, and which states a run reaches, in the terms that claims use (spec/10_state.md R28, R41;
spec/43_host_access.md R170). -/

namespace Sys2Proof.Machine

/-- "The only values STATUS ever holds" (R28). -/
def statusLegal (w : Word) : Bool :=
  w ∈ [0x00000000#32, 0x00000001#32, 0x00000005#32, 0x00000102#32, 0x00000202#32, 0x00000302#32, 0x00000402#32]

/-- The invariant of the machine between inputs: DMEM in canonical form, all internal state 0 (R41), a legal STATUS (R28), and
TAGOUT non-zero only after a command that completed without a verification result (R170). -/
structure State.Inv (s : State) : Prop where
  memory : Memory.wf s.dmem = true
  internalZero : s.eng = Engine.zero
  status : statusLegal s.status = true
  tagOut : s.tagOut ≠ Vector.replicate 4 0 → s.status = 1

/-- The states a run reaches from `s`. -/
inductive Reaches (s : State) : State → Prop where
  | refl : Reaches s s
  | tail {t u : State} : Reaches s t → step t = .next u → Reaches s u

/-- Two states that differ at most in what no host access may return: the key registers and the internal state (R38). -/
def sameButSecrets (s t : State) : Prop :=
  t = { s with eng := t.eng, opd := { s.opd with key := t.opd.key } }

/-- The inputs that start no ENCRYPT, TAG or VERIFY. -/
def Input.startsNoTransform : Input → Bool
  | .bus t => !(busWe t && busOffset t == 0 && (busWdata t == 1 || busWdata t == 2 || busWdata t == 3))
  | .reset => true
  | .store _ _ => true

end Sys2Proof.Machine
end

