-- ==== Sys2Proof/Certificates/Slice0/Obligations.lean ====
section
/-! DEFINITION. The statements for the provers. Each docstring names the sentence of spec/ it formalises. A next state written
`{ s with ... }` also says that every field it does not name is unchanged. -/

open Sys2Proof Sys2Proof.Machine

/-! ### Encoding -/

/-- R70 to R73: each instruction's encoding is canonical and decodes to it, for every offset and value; and a canonical encoding
is the one its instruction encodes to. -/
def Obligations.DecodeAndEncodeAgree : Prop :=
  (∀ i : Instr, (encode i).wellFormed = true ∧ decode (encode i) = some i) ∧
    ∀ (e : Encoded) (i : Instr), e.wellFormed = true → decode e = some i → encode i = e

/-- V15, R71, R73: words written out from the formats decode to the instructions they stand for. -/
def Obligations.TableWordsDecode : Prop :=
  decode (.bus 0x12003020100#41) = some (.wr 0x20 0x03020100) ∧
    decode (.bus 0x15ca927010c#41) = some (.wr 0x5C 0xa927010c) ∧
    decode (.bus 0x00400000000#41) = some (.rd 0x04) ∧
    decode (.bus 0x06c00000000#41) = some (.rd 0x6C) ∧
    decode (.cmd 0x00000001#32) = some .encrypt ∧ (Encoded.cmd 0x00000001#32).transaction = 0x10000000001#41 ∧
    decode (.cmd 0x00000002#32) = some .tag ∧ (Encoded.cmd 0x00000002#32).transaction = 0x10000000002#41 ∧
    decode (.cmd 0x00000003#32) = some .verify ∧ (Encoded.cmd 0x00000003#32).transaction = 0x10000000003#41 ∧
    decode (.cmd 0x00000004#32) = some .clear ∧ (Encoded.cmd 0x00000004#32).transaction = 0x10000000004#41 ∧
    decode (.cmd 0x00000101#32) = none

/-- R75: "Every 41-bit T decodes to exactly one of `WR` or `RD`. Every 32-bit c decodes to exactly one of ENCRYPT, TAG, VERIFY,
CLEAR or illegal." -/
def Obligations.DecodingIsTotalAndExact : Prop :=
  (∀ t : Transaction, decode (.bus t) =
      some (if t.getLsbD 40 then .wr (t.extractLsb' 32 8) (t.extractLsb' 0 32) else .rd (t.extractLsb' 32 8))) ∧
    ∀ c : Word, decodeCmd c =
        (if c = 0x00000001 then .encrypt else if c = 0x00000002 then .tag else if c = 0x00000003 then .verify
          else if c = 0x00000004 then .clear else .illegal) ∧
      (decode (.cmd c) = none ↔ decodeCmd c = .illegal)

/-- R171, R78: a step whose next input is a bus transaction runs the instruction it decodes to, on the state from which the
transaction is removed; a command word reaches the machine as its full bus transaction, and the step runs the command; with no
input waiting nothing changes (R190, R195). The queue is the model's (log 1, log 2, log 10, log 12). -/
def Obligations.StepRunsTheDecodedInstruction : Prop :=
  (∀ (s : State) (t : Transaction) (rest : List Input) (i : Instr),
      s.pending = .bus t :: rest → decode (.bus t) = some i → step s = exec i { s with pending := rest }) ∧
    (∀ (s : State) (c : Word) (rest : List Input) (i : Instr),
      s.pending = .bus (Encoded.cmd c).transaction :: rest → decode (.cmd c) = some i →
        step s = exec i { s with pending := rest }) ∧
    (∀ (s : State) (nbits w : Nat) (i : Instr), decodeTableWord nbits w = some i → step (s.withFetchWord nbits w) = exec i s) ∧
    ∀ s : State, s.pending = [] → step s = .next s

/-! ### Host access -/

/-- R165, the whole case list of `WR`: every write outside offset 0x00 answers a next state and changes one operand register or
nothing. -/
def Obligations.WriteEffect : Prop :=
  ∀ (v : Word) (s : State),
    exec (.wr 0x00 v) s = command v s ∧
    exec (.wr 0x08 v) s = .next { s with opd := { s.opd with keyLen := v } } ∧
    exec (.wr 0x0C v) s = .next { s with opd := { s.opd with nonceLen := v } } ∧
    exec (.wr 0x10 v) s = .next { s with opd := { s.opd with bufAddrLo := v } } ∧
    exec (.wr 0x14 v) s = .next { s with opd := { s.opd with bufAddrHi := v } } ∧
    exec (.wr 0x18 v) s = .next { s with opd := { s.opd with bufLenLo := v } } ∧
    exec (.wr 0x1C v) s = .next { s with opd := { s.opd with bufLenHi := v } } ∧
    (∀ j : Fin 8, exec (.wr (BitVec.ofNat 8 (0x20 + 4 * j.val)) v) s =
      .next { s with opd := { s.opd with key := s.opd.key.set j v } }) ∧
    (∀ j : Fin 3, exec (.wr (BitVec.ofNat 8 (0x40 + 4 * j.val)) v) s =
      .next { s with opd := { s.opd with nonce := s.opd.nonce.set j v } }) ∧
    (∀ j : Fin 4, exec (.wr (BitVec.ofNat 8 (0x50 + 4 * j.val)) v) s =
      .next { s with opd := { s.opd with tagIn := s.opd.tagIn.set j v } }) ∧
    ∀ o : Offset, o.toNat % 4 ≠ 0 ∨ o = 0x04 ∨ o = 0x4C ∨ 0x60 ≤ o.toNat → exec (.wr o v) s = .next s

/-- R166, the whole case list of `RD`: every read answers a next state that differs in the value returned to the host only. -/
def Obligations.ReadEffect : Prop :=
  ∀ s : State,
    exec (.rd 0x04) s = .next { s with responses := s.responses ++ [s.status] } ∧
    exec (.rd 0x08) s = .next { s with responses := s.responses ++ [s.opd.keyLen] } ∧
    exec (.rd 0x0C) s = .next { s with responses := s.responses ++ [s.opd.nonceLen] } ∧
    exec (.rd 0x10) s = .next { s with responses := s.responses ++ [s.opd.bufAddrLo] } ∧
    exec (.rd 0x14) s = .next { s with responses := s.responses ++ [s.opd.bufAddrHi] } ∧
    exec (.rd 0x18) s = .next { s with responses := s.responses ++ [s.opd.bufLenLo] } ∧
    exec (.rd 0x1C) s = .next { s with responses := s.responses ++ [s.opd.bufLenHi] } ∧
    (∀ j : Fin 3, exec (.rd (BitVec.ofNat 8 (0x40 + 4 * j.val))) s =
      .next { s with responses := s.responses ++ [s.opd.nonce[j]] }) ∧
    (∀ j : Fin 4, exec (.rd (BitVec.ofNat 8 (0x50 + 4 * j.val))) s =
      .next { s with responses := s.responses ++ [s.opd.tagIn[j]] }) ∧
    (∀ j : Fin 4, exec (.rd (BitVec.ofNat 8 (0x60 + 4 * j.val))) s =
      .next { s with responses := s.responses ++ [s.tagOut[j]] }) ∧
    ∀ o : Offset, o.toNat % 4 ≠ 0 ∨ o = 0x00 ∨ (0x20 ≤ o.toNat ∧ o.toNat < 0x40) ∨ o = 0x4C ∨ 0x70 ≤ o.toNat →
      exec (.rd o) s = .next { s with responses := s.responses ++ [0] }

/-- R37: at 0x4C, 0x70 to 0xFC and every misaligned offset "A host read returns 0; a host write is ignored; neither has any other
effect and neither is an error." -/
def Obligations.ReservedOffsetsAreInert : Prop :=
  ∀ (o : Offset) (v : Word) (s : State), o = 0x4C ∨ (0x70 ≤ o.toNat ∧ o.toNat ≤ 0xFC) ∨ o.toNat % 4 ≠ 0 →
    exec (.wr o v) s = .next s ∧ exec (.rd o) s = .next { s with responses := s.responses ++ [0] }

/-- R26, R29 to R35: a read-write register reads back the last value written to it; a write-only one reads 0. -/
def Obligations.RegistersReadBack : Prop :=
  ∀ (o : Offset) (v : Word) (s : State), o ≠ 0x00 →
    ∃ t u : State, exec (.wr o v) s = .next t ∧ exec (.rd o) t = .next u ∧
      (o.toNat ∈ [0x08, 0x0C, 0x10, 0x14, 0x18, 0x1C, 0x40, 0x44, 0x48, 0x50, 0x54, 0x58, 0x5C] →
        u.responses = s.responses ++ [v]) ∧
      (o.toNat ∈ [0x20, 0x24, 0x28, 0x2C, 0x30, 0x34, 0x38, 0x3C] → u.responses = s.responses ++ [0])

/-- R38, R223: "No host access of any kind returns a bit of: the key, W, S, CTR, KS, PR, PS, ACC". Of two states that differ only
in the key registers and the internal state, a step on any input that starts no ENCRYPT, TAG or VERIFY gives states that again
differ only there, with the same values returned to the host. -/
def Obligations.SecretsStayHidden : Prop :=
  ∀ s t s' : State, sameButSecrets s t → (∀ x ∈ s.pending.head?, x.startsNoTransform = true) → step s = .next s' →
    ∃ t', step t = .next t' ∧ sameButSecrets s' t' ∧ t'.responses = s'.responses

/-- The frame of WR outside CMD and of RD (R165, R166): WR changes no operand register but the one at its offset, RD changes none;
neither changes a result register, the internal state or a byte of DMEM. WR returns no value and RD returns one. -/
def Obligations.FrameOfRegisterAccess : Prop :=
  (∀ (o : Offset) (v : Word) (s t : State), o ≠ 0x00 → exec (.wr o v) s = .next t →
    t.status = s.status ∧ t.tagOut = s.tagOut ∧ t.eng = s.eng ∧ (∀ a, memRead t.dmem a = memRead s.dmem a) ∧
    t.populated = s.populated ∧ t.pending = s.pending ∧ t.responses = s.responses ∧
    (o ≠ 0x08 → t.opd.keyLen = s.opd.keyLen) ∧ (o ≠ 0x0C → t.opd.nonceLen = s.opd.nonceLen) ∧
    (o ≠ 0x10 → t.opd.bufAddrLo = s.opd.bufAddrLo) ∧ (o ≠ 0x14 → t.opd.bufAddrHi = s.opd.bufAddrHi) ∧
    (o ≠ 0x18 → t.opd.bufLenLo = s.opd.bufLenLo) ∧ (o ≠ 0x1C → t.opd.bufLenHi = s.opd.bufLenHi) ∧
    (∀ j : Fin 8, o ≠ BitVec.ofNat 8 (0x20 + 4 * j.val) → t.opd.key[j] = s.opd.key[j]) ∧
    (∀ j : Fin 3, o ≠ BitVec.ofNat 8 (0x40 + 4 * j.val) → t.opd.nonce[j] = s.opd.nonce[j]) ∧
    ∀ j : Fin 4, o ≠ BitVec.ofNat 8 (0x50 + 4 * j.val) → t.opd.tagIn[j] = s.opd.tagIn[j]) ∧
  ∀ (o : Offset) (s t : State), exec (.rd o) s = .next t →
    t.status = s.status ∧ t.tagOut = s.tagOut ∧ t.eng = s.eng ∧ t.opd = s.opd ∧
    (∀ a, memRead t.dmem a = memRead s.dmem a) ∧ t.populated = s.populated ∧ t.pending = s.pending ∧
    ∃ v : Word, t.responses = s.responses ++ [v]

/-! ### The command frame -/

/-- R168, R27, R184: a write to CMD is the command its word decodes to, and IllegalCommand for every other word. -/
def Obligations.CommandWordSelectsTheCommand : Prop :=
  ∀ (c : Word) (s : State),
    exec (.wr 0x00 0x00000001) s = exec .encrypt s ∧ exec (.wr 0x00 0x00000002) s = exec .tag s ∧
    exec (.wr 0x00 0x00000003) s = exec .verify s ∧ exec (.wr 0x00 0x00000004) s = exec .clear s ∧
    (c ≠ 0x00000001 ∧ c ≠ 0x00000002 ∧ c ≠ 0x00000003 ∧ c ≠ 0x00000004 →
      exec (.wr 0x00 c) s =
        .next { s with status := 0x00000402, tagOut := Vector.replicate 4 0, opd := OperandRegs.zero, eng := Engine.zero })

/-- R169: "At the end of every command, whatever its outcome (completed, structural error, illegal command word, CLEAR), the engine
writes 0 to every operand register and every piece of internal state". It leaves STATUS, TAGOUT and DMEM; and a second ENCRYPT, TAG
or VERIFY without reloading ends with InvalidKeyLength. -/
def Obligations.CompletionClearAfterEveryCommand : Prop :=
  (∀ (c : Word) (s t : State), exec (.wr 0x00 c) s = .next t →
    t.opd.keyLen = 0 ∧ t.opd.nonceLen = 0 ∧ t.opd.bufAddrLo = 0 ∧ t.opd.bufAddrHi = 0 ∧ t.opd.bufLenLo = 0 ∧ t.opd.bufLenHi = 0 ∧
    (∀ j : Fin 8, t.opd.key[j] = 0) ∧ (∀ j : Fin 3, t.opd.nonce[j] = 0) ∧ (∀ j : Fin 4, t.opd.tagIn[j] = 0) ∧
    (∀ i : Fin 16, t.eng.w[i] = 0) ∧ t.eng.ctr = 0 ∧ (∀ i : Fin 64, t.eng.ks[i] = 0) ∧ t.eng.pr = 0 ∧ t.eng.ps = 0 ∧
    t.eng.acc = 0 ∧ (∀ i : Fin 16, t.eng.tagc[i] = 0) ∧
    ∀ i, i = Instr.encrypt ∨ i = Instr.tag ∨ i = Instr.verify →
      exec i t =
        .next { t with status := 0x00000102, tagOut := Vector.replicate 4 0, opd := OperandRegs.zero, eng := Engine.zero }) ∧
  ∀ s : State, (completionClear s).status = s.status ∧ (completionClear s).tagOut = s.tagOut ∧ (completionClear s).dmem = s.dmem

/-- R9, R28: a command that answers next ends in exactly one of three outcomes: completed (DONE, not ERR; ENCRYPT, TAG, VERIFY),
structural error (ERR, not DONE, a code of 1 to 4), or cleared (STATUS 0; CLEAR and nothing else); VOK needs VERIFY. -/
def Obligations.CommandsEndInThreeWays : Prop :=
  ∀ (c : Word) (s t : State), exec (.wr 0x00 c) s = .next t →
    ((statusDone t.status = true ∧ statusErr t.status = false ∧ statusEcode t.status = 0 ∧
        (c = 0x00000001 ∨ c = 0x00000002 ∨ c = 0x00000003)) ∨
      (statusDone t.status = false ∧ statusErr t.status = true ∧ statusVok t.status = false ∧
        1 ≤ (statusEcode t.status).toNat ∧ (statusEcode t.status).toNat ≤ 4 ∧ c ≠ 0x00000004) ∨
      (t.status = 0 ∧ c = 0x00000004)) ∧
    (statusVok t.status = true → c = 0x00000003)

/-- R28, R168 step 3, R180: the STATUS value of each outcome, field by field; bits 7:3 and 31:12 read 0. -/
def Obligations.StatusEncodesTheOutcome : Prop :=
  ∀ (done err vok : Bool) (ecode : BitVec 4),
    statusDone (statusWord done err vok ecode) = done ∧ statusErr (statusWord done err vok ecode) = err ∧
    statusVok (statusWord done err vok ecode) = vok ∧ statusEcode (statusWord done err vok ecode) = ecode ∧
    (statusWord done err vok ecode).extractLsb' 3 5 = 0 ∧ (statusWord done err vok ecode).extractLsb' 12 20 = 0 ∧
    (∀ tg, outcomeStatus (.tagged tg) = 0x00000001) ∧ outcomeStatus .encrypted = 0x00000001 ∧
    outcomeStatus (.verified true) = 0x00000005 ∧ outcomeStatus (.verified false) = 0x00000001 ∧
    outcomeStatus (.error .invalidKeyLength) = 0x00000102 ∧ outcomeStatus (.error .invalidNonceLength) = 0x00000202 ∧
    outcomeStatus (.error .counterOverflow) = 0x00000302 ∧ outcomeStatus (.error .illegalCommand) = 0x00000402 ∧
    outcomeStatus .cleared = 0x00000000

/-- R186: `raise e` "writes `reg[STATUS] <- 0x00000002 + 0x100 * code(e)` and `reg[TAGOUT0..3] <- 0`, and then to the completion
clear. Nothing is saved". -/
def Obligations.RaiseEffect : Prop :=
  ∀ (e : StructuralError) (s : State),
    raiseError e s =
      { s with status := 0x00000002 + 0x100 * (errorCode e).setWidth 32, tagOut := Vector.replicate 4 0,
               opd := OperandRegs.zero, eng := Engine.zero }

/-- R187: "One command reports one error, the first that applies in this order: (1) IllegalCommand; (2) InvalidKeyLength;
(3) InvalidNonceLength; (4) CounterOverflow." Each is a next state with DMEM as before. -/
def Obligations.ErrorPriority : Prop :=
  ∀ (c : Word) (s : State),
    let failed (status : Word) : Host.Outcome State Fault Refusal :=
      .next { s with status := status, tagOut := Vector.replicate 4 0, opd := OperandRegs.zero, eng := Engine.zero }
    (c ≠ 0x00000001 ∧ c ≠ 0x00000002 ∧ c ≠ 0x00000003 ∧ c ≠ 0x00000004 → exec (.wr 0x00 c) s = failed 0x00000402) ∧
    (c = 0x00000001 ∨ c = 0x00000002 ∨ c = 0x00000003 → s.opd.keyLen ≠ 32 → exec (.wr 0x00 c) s = failed 0x00000102) ∧
    (c = 0x00000001 ∨ c = 0x00000002 ∨ c = 0x00000003 → s.opd.keyLen = 32 → s.opd.nonceLen ≠ 12 →
      exec (.wr 0x00 c) s = failed 0x00000202) ∧
    (c = 0x00000001 → s.opd.keyLen = 32 → s.opd.nonceLen = 12 → 274877906880 < bufLen s.opd →
      exec (.wr 0x00 c) s = failed 0x00000302)

/-- R167: CLEAR "puts every register and all internal state of the CORE to 0, as reset does, without touching DMEM"; it cannot raise,
and "CLEAR after reset changes nothing". -/
def Obligations.ClearEffect : Prop :=
  (∀ s : State, exec .clear s =
      .next { s with status := 0, tagOut := Vector.replicate 4 0, opd := OperandRegs.zero, eng := Engine.zero }) ∧
    (∀ s : State, exec .clear s = .next (hardwareReset s)) ∧ exec .clear State.reset = .next State.reset

/-- R170: "STATUS and TAGOUT0 to TAGOUT3 are written by every command (step 3 of rule R168) and by nothing else except reset"; they
are not sticky; "TAGOUT is non-zero only after a TAG command that completed". -/
def Obligations.ResultRegistersHoldTheLastOutcome : Prop :=
  (∀ (o : Offset) (v : Word) (s t : State), (o ≠ 0x00 ∧ exec (.wr o v) s = .next t) ∨ exec (.rd o) s = .next t →
    t.status = s.status ∧ t.tagOut = s.tagOut) ∧
  (∀ (a : Addr) (v : Byte) (s t : State), hostStore a v s = .next t → t.status = s.status ∧ t.tagOut = s.tagOut) ∧
  (∀ (c status : Word) (tagOut : Vector Word 4) (s : State),
    exec (.wr 0x00 c) { s with status := status, tagOut := tagOut } = exec (.wr 0x00 c) s) ∧
  ∀ (c : Word) (s t : State), exec (.wr 0x00 c) s = .next t → t.tagOut ≠ Vector.replicate 4 0 →
    c = 0x00000002 ∧ statusDone t.status = true

/-- The frame of the four commands (R59, R168, R169): operand registers and internal state end at 0; TAGOUT is 0 unless TAG;
TAG, VERIFY, CLEAR and every failed command leave each byte of DMEM; ENCRYPT leaves each byte outside `dmem_addr(0)` to
`dmem_addr(BUF_LEN - 1)`; nothing is returned to the host. -/
def Obligations.FrameOfCommands : Prop :=
  ∀ (i : Instr) (s t : State), i = .encrypt ∨ i = .tag ∨ i = .verify ∨ i = .clear → exec i s = .next t →
    t.opd = OperandRegs.zero ∧ t.eng = Engine.zero ∧ (i ≠ .tag → t.tagOut = Vector.replicate 4 0) ∧
    t.populated = s.populated ∧ t.pending = s.pending ∧ t.responses = s.responses ∧
    (i ≠ .encrypt → ∀ a, memRead t.dmem a = memRead s.dmem a) ∧
    (statusErr t.status = true → ∀ a, memRead t.dmem a = memRead s.dmem a) ∧
    (i = .encrypt → ∀ a, (∀ k, k < bufLen s.opd → dmemAddr s.opd k ≠ a) → memRead t.dmem a = memRead s.dmem a)

/-- R171, R59: of all bus transactions, only a completed ENCRYPT can change a byte of DMEM, and only a byte of its buffer. -/
def Obligations.OnlyEncryptWritesMemory : Prop :=
  ∀ (i : Instr) (s t : State) (a : Addr), exec i s = .next t → memRead t.dmem a ≠ memRead s.dmem a →
    (i = .encrypt ∨ i = .wr 0x00 0x00000001) ∧ t.status = 0x00000001 ∧ ∃ k, k < bufLen s.opd ∧ dmemAddr s.opd k = a

/-- U6, U7, R62 (93_implementation_defined.md): an instruction is refused exactly when it is an ENCRYPT, TAG or VERIFY, as a command
or as a write to CMD, that passed its checks and whose buffer includes an address where `dmem_valid` is false. `dmem_valid` is the
parameter of log 4. -/
def Obligations.RefusedExactlyOnUnpopulatedBuffers : Prop :=
  ∀ (i : Instr) (s : State) (r : Refusal),
    exec i s = .refused r ↔
      r = .bufferNotPopulated ∧
      (i = .encrypt ∨ i = .tag ∨ i = .verify ∨ i = .wr 0x00 0x00000001 ∨ i = .wr 0x00 0x00000002 ∨ i = .wr 0x00 0x00000003) ∧
      s.opd.keyLen = 32 ∧ s.opd.nonceLen = 12 ∧
      (i = .encrypt ∨ i = .wr 0x00 0x00000001 → bufLen s.opd ≤ 274877906880) ∧
      ∃ k, k < bufLen s.opd ∧ dmemValid s.populated (dmemAddr s.opd k) = false

/-! ### Reset -/

/-- R42: after reset every register and every piece of internal state holds 0 and DMEM is unchanged; the first ENCRYPT, TAG or VERIFY then ends with
InvalidKeyLength. -/
def Obligations.ResetValues : Prop :=
  readReg .cmd State.reset = 0 ∧ State.reset.status = 0 ∧
  State.reset.opd.keyLen = 0 ∧ State.reset.opd.nonceLen = 0 ∧ bufAddr State.reset.opd = 0 ∧ bufLen State.reset.opd = 0 ∧
  (∀ j : Fin 8, State.reset.opd.key[j] = 0) ∧ (∀ j : Fin 3, State.reset.opd.nonce[j] = 0) ∧
  (∀ j : Fin 4, State.reset.opd.tagIn[j] = 0) ∧ (∀ j : Fin 4, State.reset.tagOut[j] = 0) ∧
  (∀ i : Fin 16, State.reset.eng.w[i] = 0) ∧ State.reset.eng.ctr = 0 ∧ (∀ i : Fin 64, State.reset.eng.ks[i] = 0) ∧
  (∀ s : State, (hardwareReset s).dmem = s.dmem) ∧ State.reset.eng.pr = 0 ∧ State.reset.eng.ps = 0 ∧ State.reset.eng.acc = 0 ∧ (∀ i : Fin 16, State.reset.eng.tagc[i] = 0) ∧
  ∀ i, i = Instr.encrypt ∨ i = Instr.tag ∨ i = Instr.verify → exec i State.reset = .next { State.reset with status := 0x00000102 }

/-- R210: when reset is applied while no command is running, "every register and all internal state take the values of
`10_state.md` rule R42 (all zero)"; "DMEM is not read or written by reset"; "The state after reset is identical to the state after
a CLEAR command". -/
def Obligations.ResetEffect : Prop :=
  ∀ (s : State) (rest : List Input), s.pending = .reset :: rest →
    step s = .next { s with status := 0, tagOut := Vector.replicate 4 0, opd := OperandRegs.zero, eng := Engine.zero,
                            pending := rest } ∧
    step s = exec .clear { s with pending := rest }

/-! ### Byte order and data memory -/

/-- R50, R51: `LE32` and `le_bytes32` are the sums and bytes the rules give and are inverse; so are `le_int` and `le_bytes`;
"`LE32` is `le_int` on 4 bytes". -/
def Obligations.ByteOrderConversions : Prop :=
  (∀ b0 b1 b2 b3 : Byte,
    (le32 b0 b1 b2 b3).toNat = b0.toNat + 2 ^ 8 * b1.toNat + 2 ^ 16 * b2.toNat + 2 ^ 24 * b3.toNat ∧
    (le32 b0 b1 b2 b3).toNat = leInt [b0, b1, b2, b3] ∧ leBytes32 (le32 b0 b1 b2 b3) = #v[b0, b1, b2, b3]) ∧
  (∀ w : Word, leBytes32 w = #v[w.extractLsb' 0 8, w.extractLsb' 8 8, w.extractLsb' 16 8, w.extractLsb' 24 8] ∧
    le32 (leBytes32 w)[0] (leBytes32 w)[1] (leBytes32 w)[2] (leBytes32 w)[3] = w) ∧
  (∀ b : List Byte, leInt b = ∑ i : Fin b.length, b[i].toNat * 2 ^ (8 * i.val)) ∧
  (∀ (v n : Nat) (i : Fin n), (leBytes v n)[i].toNat = v / 2 ^ (8 * i.val) % 256) ∧
  (∀ v n : Nat, v < 2 ^ (8 * n) → leInt (leBytes v n).toList = v) ∧
  (∀ (n : Nat) (b : Vector Byte n), leBytes (leInt b.toList) n = b) ∧
  le32 0x00 0x00 0x00 0x09 = 0x09000000 ∧ leBytes32 0x61707865 = #v[0x65, 0x78, 0x70, 0x61]

/-- R52: register j of a group holds `LE32(bytes[4j .. 4j+3])`, for the key, the nonce, the expected tag and the computed tag. -/
def Obligations.RegistersCarryByteStrings : Prop :=
  (∀ (o : OperandRegs) (j : Fin 8), o.key[j] = le32 ((keyBytes o)[4 * j.val]'(by omega)) ((keyBytes o)[4 * j.val + 1]'(by omega))
    ((keyBytes o)[4 * j.val + 2]'(by omega)) ((keyBytes o)[4 * j.val + 3]'(by omega))) ∧
  (∀ (o : OperandRegs) (j : Fin 3), o.nonce[j] = le32 ((nonceBytes o)[4 * j.val]'(by omega))
    ((nonceBytes o)[4 * j.val + 1]'(by omega)) ((nonceBytes o)[4 * j.val + 2]'(by omega)) ((nonceBytes o)[4 * j.val + 3]'(by omega))) ∧
  (∀ (o : OperandRegs) (j : Fin 4), o.tagIn[j] = le32 ((tagInBytes o)[4 * j.val]'(by omega))
    ((tagInBytes o)[4 * j.val + 1]'(by omega)) ((tagInBytes o)[4 * j.val + 2]'(by omega)) ((tagInBytes o)[4 * j.val + 3]'(by omega))) ∧
  (∀ (tg : Vector Byte 16) (j : Fin 4), (outcomeTagOut (.tagged tg))[j] = le32 (tg[4 * j.val]'(by omega))
    (tg[4 * j.val + 1]'(by omega)) (tg[4 * j.val + 2]'(by omega)) (tg[4 * j.val + 3]'(by omega))) ∧
  (∀ o : OperandRegs, (keyBytes o).toList = o.key.toList.flatMap fun w => (leBytes32 w).toList) ∧
  (∀ o : OperandRegs, (nonceBytes o).toList = o.nonce.toList.flatMap fun w => (leBytes32 w).toList) ∧
  ∀ o : OperandRegs, (tagInBytes o).toList = o.tagIn.toList.flatMap fun w => (leBytes32 w).toList

/-- R56 and the canonical form of the model's DMEM: `MemWrite` makes DMEM hold the byte, changes no other byte, and keeps the form;
memories in that form that read alike are equal. The form is the model's (log 3). -/
def Obligations.MemoryReadAfterWrite : Prop :=
  (∀ (m : Memory) (a b : Addr) (v : Byte), Memory.wf m = true →
    memRead (memWrite m a v) a = v ∧ (a ≠ b → memRead (memWrite m a v) b = memRead m b) ∧ Memory.wf (memWrite m a v) = true) ∧
  ∀ m n : Memory, Memory.wf m = true → Memory.wf n = true → (∀ a, memRead m a = memRead n a) → m = n

/-- R57, R31, R32: byte i of the buffer is at `(BUF_ADDR + i) mod 2^64`, and "the addresses of distinct buffer bytes are distinct". -/
def Obligations.BufferAddresses : Prop :=
  ∀ (o : OperandRegs) (i j : Nat),
    (bufAddr o).toNat = o.bufAddrHi.toNat * 2 ^ 32 + o.bufAddrLo.toNat ∧
    bufLen o = o.bufLenHi.toNat * 2 ^ 32 + o.bufLenLo.toNat ∧
    (dmemAddr o i).toNat = (o.bufAddrHi.toNat * 2 ^ 32 + o.bufAddrLo.toNat + i) % 2 ^ 64 ∧
    (i < bufLen o → j < bufLen o → dmemAddr o i = dmemAddr o j → i = j)

/-- R44, R63 (a): a host store between commands makes DMEM hold the byte and changes nothing else. The input is the model's
(log 9), and so is the canonical form in the premise (log 3). -/
def Obligations.HostStoreReachesMemory : Prop :=
  ∀ (s : State) (a : Addr) (v : Byte) (rest : List Input), s.pending = .store a v :: rest → Memory.wf s.dmem = true →
    (dmemValid s.populated a = true → ∃ m, step s = .next { s with dmem := m, pending := rest } ∧ memRead m a = v ∧
      ∀ b, b ≠ a → memRead m b = memRead s.dmem b) ∧
    (dmemValid s.populated a = false → step s = .refused .hostStoreNotPopulated)

/-! ### The Block Engine -/

/-- R90, R91: addition modulo 2^32 with the carry dropped; bit-wise exclusive OR; with the corner cases and examples of the two
rules. -/
def Obligations.AddAndXorWords : Prop :=
  (∀ x y z : Word, (add32 x y).toNat = (x.toNat + y.toNat) % 2 ^ 32 ∧ add32 x 0 = x ∧ add32 x y = add32 y x ∧
    add32 (add32 x y) z = add32 x (add32 y z) ∧ (∀ i : Fin 32, (xor32 x y)[i] = (x[i] != y[i])) ∧ xor32 x x = 0 ∧
    xor32 x 0 = x ∧ xor32 (xor32 x y) y = x) ∧
  add32 0xFFFFFFFF 0x00000001 = 0 ∧ add32 0x80000000 0x80000000 = 0 ∧ add32 0x516461b1 0x2a5f714c = 0x7bc3d2fd ∧
  xor32 0x3d631689 0x7bc3d2fd = 0x46a0c474

/-- R92: "bit i of v becomes bit `(i + n) mod 32` of the result", for every n in 0..31; rotation by 0 is the identity; no bit is
lost. -/
def Obligations.RotationIsTotal : Prop :=
  (∀ (v : Word) (n : Fin 32),
    (∀ i : Fin 32, (rotl32 v n).getLsbD ((i.val + n.val) % 32) = v[i]) ∧
    (rotl32 v n).toNat = (v.toNat * 2 ^ n.val) % 2 ^ 32 + v.toNat / 2 ^ (32 - n.val) ∧
    rotl32 (rotl32 v n) ⟨(32 - n.val) % 32, Nat.mod_lt _ (by decide)⟩ = v ∧
    rotl32 0xFFFFFFFF n = 0xFFFFFFFF ∧ rotl32 0 n = 0) ∧
  (∀ v : Word, rotl32 v 0 = v) ∧ rotl32 0x80000000 1 = 0x00000001 ∧ rotl32 0x00000001 31 = 0x80000000 ∧
  rotl32 0x12345678 7 = 0x1a2b3c09 ∧ rotl32 0x12345678 8 = 0x34567812 ∧ rotl32 0x12345678 12 = 0x45678123 ∧
  rotl32 0x12345678 16 = 0x56781234 ∧ rotl32 0x12345678 31 = 0x091a2b3c

/-- R93: `W[x] <- add32(W[x], W[y])`, then `W[z] <- rotl32(W[z] ^ W[x], n)` with the W[x] just written; "leaves W[y] and the other 13
registers unchanged". -/
def Obligations.ArxStageEffect : Prop :=
  ∀ (x y z : Fin 16) (n : Fin 32) (w : Vector Word 16), x ≠ y → y ≠ z → x ≠ z →
    (arxStage x y z n w)[x] = add32 w[x] w[y] ∧
    (arxStage x y z n w)[z] = rotl32 (xor32 w[z] (add32 w[x] w[y])) n ∧
    ∀ i : Fin 16, i ≠ x → i ≠ z → (arxStage x y z n w)[i] = w[i]

/-- R96: the twelve operations of the quarter-round in sequence, on four distinct words; "the other 12 registers are unchanged";
with the source's own vector and the all-zero corner case. -/
def Obligations.QuarterRoundEffect : Prop :=
  (∀ (a b c d : Fin 16) (w : Vector Word 16), [a, b, c, d].Nodup →
    let a1 := add32 w[a] w[b]; let d1 := rotl32 (xor32 w[d] a1) 16
    let c1 := add32 w[c] d1; let b1 := rotl32 (xor32 w[b] c1) 12
    let a2 := add32 a1 b1; let d2 := rotl32 (xor32 d1 a2) 8
    let c2 := add32 c1 d2; let b2 := rotl32 (xor32 b1 c2) 7
    (quarterRound a b c d w)[a] = a2 ∧ (quarterRound a b c d w)[b] = b2 ∧ (quarterRound a b c d w)[c] = c2 ∧
    (quarterRound a b c d w)[d] = d2 ∧
    ∀ i : Fin 16, i ∉ [a, b, c, d] → (quarterRound a b c d w)[i] = w[i]) ∧
  (∀ w : Vector Word 16, w[2] = 0x516461b1 → w[7] = 0x2a5f714c → w[8] = 0x53372767 → w[13] = 0x3d631689 →
    (quarterRound 2 7 8 13 w)[2] = 0xbdb886dc ∧ (quarterRound 2 7 8 13 w)[7] = 0xcfacafd2 ∧
    (quarterRound 2 7 8 13 w)[8] = 0xe46bea80 ∧ (quarterRound 2 7 8 13 w)[13] = 0xccc07c79) ∧
  ∀ a b c d : Fin 16, quarterRound a b c d (Vector.replicate 16 0) = Vector.replicate 16 0

/-- R96 corner case (2): "QR is a bijection on the four words (each step is invertible)", here of the whole register array. The
spec marks the sentence as derived. -/
def Obligations.QuarterRoundIsBijective : Prop :=
  ∀ a b c d : Fin 16, [a, b, c, d].Nodup → Function.Bijective (quarterRound a b c d)

/-- R104: quarter-rounds on disjoint words commute, so "Their order within the round therefore does not affect the result". The spec
marks the rule as derived. -/
def Obligations.LanesAreIndependent : Prop :=
  (∀ (a b c d a' b' c' d' : Fin 16) (w : Vector Word 16), [a, b, c, d, a', b', c', d'].Nodup →
    quarterRound a b c d (quarterRound a' b' c' d' w) = quarterRound a' b' c' d' (quarterRound a b c d w)) ∧
  ∀ w : Vector Word 16,
    columnRound w = quarterRound 0 4 8 12 (quarterRound 1 5 9 13 (quarterRound 2 6 10 14 (quarterRound 3 7 11 15 w))) ∧
    diagonalRound w = quarterRound 0 5 10 15 (quarterRound 1 6 11 12 (quarterRound 2 7 8 13 (quarterRound 3 4 9 14 w)))

/-- R94: S[0..3] are the constants, S[4+j] is KEYj, S[12] is the counter, S[13+j] is NONCEj; the constants are the little-endian words
of "expand 32-byte k", which the spec marks as derived. -/
def Obligations.InitialState : Prop :=
  (∀ (o : OperandRegs) (ctr : Word),
    (initState (keyBytes o) (nonceBytes o) ctr)[0] = 0x61707865 ∧ (initState (keyBytes o) (nonceBytes o) ctr)[1] = 0x3320646e ∧
    (initState (keyBytes o) (nonceBytes o) ctr)[2] = 0x79622d32 ∧ (initState (keyBytes o) (nonceBytes o) ctr)[3] = 0x6b206574 ∧
    (∀ j : Fin 8, (initState (keyBytes o) (nonceBytes o) ctr)[4 + j.val]'(by omega) = o.key[j]) ∧
    (initState (keyBytes o) (nonceBytes o) ctr)[12] = ctr ∧
    ∀ j : Fin 3, (initState (keyBytes o) (nonceBytes o) ctr)[13 + j.val]'(by omega) = o.nonce[j]) ∧
  leBytes32 0x61707865 = #v[0x65, 0x78, 0x70, 0x61] ∧ leBytes32 0x3320646e = #v[0x6e, 0x64, 0x20, 0x33] ∧
  leBytes32 0x79622d32 = #v[0x32, 0x2d, 0x62, 0x79] ∧ leBytes32 0x6b206574 = #v[0x74, 0x65, 0x20, 0x6b]

/-- R97 to R103: byte 4i + k of a block is byte k of `add32(S[i], W[i])`, where W is S after ten times the column round and then the
diagonal round. That the column round comes first is R99's reading of the source's order of mention (N11, G1). -/
def Obligations.BlockIsTenDoubleRounds : Prop :=
  (∀ w : Vector Word 16, doubleRound w =
    quarterRound 3 4 9 14 (quarterRound 2 7 8 13 (quarterRound 1 6 11 12 (quarterRound 0 5 10 15
      (quarterRound 3 7 11 15 (quarterRound 2 6 10 14 (quarterRound 1 5 9 13 (quarterRound 0 4 8 12 w)))))))) ∧
  ∀ (key : Vector Byte 32) (nonce : Vector Byte 12) (ctr : Word) (i : Fin 16) (k : Fin 4),
    (block key nonce ctr)[4 * i.val + k.val]'(by omega) =
      (leBytes32 (add32 (initState key nonce ctr)[i] (doubleRound^[10] (initState key nonce ctr))[i]))[k]

/-- R103, R106: `Block` on the engine leaves the mixed words in W and the block of (key, nonce, CTR) in KS, and no other register of
the engine changes. -/
def Obligations.BlockEngineFrame : Prop :=
  ∀ (key : Vector Byte 32) (nonce : Vector Byte 12) (e : Engine),
    runBlock key nonce e = { e with w := rounds20 (initState key nonce e.ctr), ks := block key nonce e.ctr }

/-! ### The Stream Cipher -/

/-- R120: `NBlocks(L) = full(L) + (1 if tail(L) != 0 else 0)` "equals the ceiling of L / 64"; slice j is buffer bytes 64j to
64j + n_j - 1, and every buffer byte lies in exactly one slice. -/
def Obligations.SlicesPartitionTheBuffer : Prop :=
  (∀ len : Nat, nBlocks len = len / 64 + (if len % 64 ≠ 0 then 1 else 0) ∧ nBlocks len = (len + 63) / 64 ∧
    (∀ j, j < len / 64 → sliceLen len j = 64) ∧ sliceLen len (len / 64) = len % 64 ∧
    ∀ t, t < len ↔ ∃! j, j < nBlocks len ∧ 64 * j ≤ t ∧ t < 64 * j + sliceLen len j) ∧
  nBlocks 0 = 0 ∧ nBlocks 1 = 1 ∧ nBlocks 64 = 1 ∧ nBlocks 65 = 2 ∧ nBlocks 274877906880 = 2 ^ 32 - 1 ∧
  nBlocks 274877906881 = 2 ^ 32

/-- R121: XorFold(j, n) replaces byte i of slice j by its exclusive OR with KS[i] for i < n; "bytes outside the slice are not
touched". The premise on the memory is the model's canonical form (log 3), which every step keeps. -/
def Obligations.XorFoldEffect : Prop :=
  ∀ (o : OperandRegs) (j n : Nat) (ks : Vector Byte 64) (m : Memory), Memory.wf m = true → n ≤ 64 → 64 * j + n ≤ bufLen o →
    (∀ i : Fin 64, i.val < n →
      memRead (xorFold o j n ks m) (dmemAddr o (64 * j + i.val)) = memRead m (dmemAddr o (64 * j + i.val)) ^^^ ks[i]) ∧
    (∀ a, (∀ i, i < n → dmemAddr o (64 * j + i) ≠ a) → memRead (xorFold o j n ks m) a = memRead m a)

/-- R124, R183, R8: with accepted lengths of key and nonce, ENCRYPT ends with CounterOverflow exactly when BUF_LEN exceeds
274877906880, which is exactly when it needs more than 0xFFFFFFFF blocks. Where the checks pass, slice j of the block loop leaves
exactly 1 + j in CTR, never 0 and never wrapped, and the block of that counter in KS; after the whole loop over a buffer that is not
empty CTR is the number of blocks. The spec marks the threshold as derived. -/
def Obligations.CounterNeverWraps : Prop :=
  (∀ o : OperandRegs, lengthCheck o = none →
    (cipherCheck o = some .counterOverflow ↔ bufLen o > 274877906880) ∧
    (cipherCheck o = some .counterOverflow ↔ nBlocks (bufLen o) > 0xFFFFFFFF)) ∧
  ∀ (o : OperandRegs) (s : State), cipherCheck o = none →
    (∀ j, j < nBlocks (bufLen o) →
      (encryptSlice o j s).eng.ctr.toNat = 1 + j ∧ (encryptSlice o j s).eng.ctr ≠ 0 ∧
      (encryptSlice o j s).eng.ks = block (keyBytes o) (nonceBytes o) (encryptSlice o j s).eng.ctr) ∧
    (0 < bufLen o → (encryptWork o s).eng.ctr.toNat = nBlocks (bufLen o))

/-- R122 in closed form (the spec marks it as derived): with accepted lengths and a populated buffer ENCRYPT completes, with STATUS
1, TAGOUT 0 and the completion clear, and for every t < L, `out[t] = in[t] ^ Block(key, nonce, 1 + (t div 64))[t mod 64]`; every byte
outside the buffer is as before. That DMEM has a canonical form, and keeps it, is the model's choice (log 3). -/
def Obligations.EncryptTransformsTheBuffer : Prop :=
  ∀ s : State, Memory.wf s.dmem = true → s.opd.keyLen = 32 → s.opd.nonceLen = 12 → bufLen s.opd ≤ 274877906880 →
    (∀ t, t < bufLen s.opd → dmemValid s.populated (dmemAddr s.opd t) = true) →
    ∃ m : Memory,
      exec .encrypt s = .next { s with status := 0x00000001, tagOut := Vector.replicate 4 0, opd := OperandRegs.zero,
                                       eng := Engine.zero, dmem := m } ∧
      Memory.wf m = true ∧
      (∀ t, t < bufLen s.opd →
        memRead m (dmemAddr s.opd t) = memRead s.dmem (dmemAddr s.opd t) ^^^
          (block (keyBytes s.opd) (nonceBytes s.opd) (BitVec.ofNat 32 (1 + t / 64)))[t % 64]'(Nat.mod_lt _ (by decide))) ∧
      ∀ a, (∀ t, t < bufLen s.opd → dmemAddr s.opd t ≠ a) → memRead m a = memRead s.dmem a

/-- R125: "`decrypt(encrypt(P, K, N), K, N) == P` for all P, K, N (involution property, since both are the same XOR transform)."
With the operand registers loaded afresh the second command restores DMEM; without, it ends with InvalidKeyLength. That DMEM comes back
as the same list, and not only with the same bytes, rests on its canonical form, the model's choice (log 3). -/
def Obligations.EncryptIsAnInvolution : Prop :=
  ∀ s : State, Memory.wf s.dmem = true → s.opd.keyLen = 32 → s.opd.nonceLen = 12 → bufLen s.opd ≤ 274877906880 →
    (∀ t, t < bufLen s.opd → dmemValid s.populated (dmemAddr s.opd t) = true) →
    ∃ t u : State, exec .encrypt s = .next t ∧ exec .encrypt { t with opd := s.opd } = .next u ∧ u.dmem = s.dmem ∧
      exec .encrypt t = .next { t with status := 0x00000102, tagOut := Vector.replicate 4 0, opd := OperandRegs.zero,
                                       eng := Engine.zero }

/-- R126: ENCRYPT on a buffer of zero bytes leaves the keystream `Block(key, nonce, 1) ++ Block(key, nonce, 2) ++ ...` in it; on 64
zero bytes exactly `Block(key, nonce, 1)`. The spec marks the general form as derived. The premise on the memory is the model's
canonical form (log 3). -/
def Obligations.EncryptingZerosGivesTheKeystream : Prop :=
  ∀ s : State, Memory.wf s.dmem = true → s.opd.keyLen = 32 → s.opd.nonceLen = 12 → bufLen s.opd ≤ 274877906880 →
    (∀ t, t < bufLen s.opd → dmemValid s.populated (dmemAddr s.opd t) = true) →
    (∀ t, t < bufLen s.opd → memRead s.dmem (dmemAddr s.opd t) = 0) →
    ∃ u : State, exec .encrypt s = .next u ∧ u.status = 0x00000001 ∧
      (∀ t, t < bufLen s.opd → memRead u.dmem (dmemAddr s.opd t) =
        (block (keyBytes s.opd) (nonceBytes s.opd) (BitVec.ofNat 32 (1 + t / 64)))[t % 64]'(Nat.mod_lt _ (by decide))) ∧
      (bufLen s.opd = 64 → ∀ i : Fin 64,
        memRead u.dmem (dmemAddr s.opd i.val) = (block (keyBytes s.opd) (nonceBytes s.opd) 1)[i])

/-- R127: with BUF_LEN = 0 and accepted lengths ENCRYPT completes and touches no DMEM byte, whatever BUF_ADDR is and whatever is
populated. The spec marks the rule as derived. -/
def Obligations.EmptyBufferEncrypt : Prop :=
  ∀ s : State, s.opd.keyLen = 32 → s.opd.nonceLen = 12 → bufLen s.opd = 0 →
    exec .encrypt s = .next { s with status := 0x00000001, tagOut := Vector.replicate 4 0, opd := OperandRegs.zero,
                                     eng := Engine.zero }

/-! ### The One-Time Authenticator -/

/-- R137: Clamp masks bytes 3, 7, 11, 15 with 0x0F and bytes 4, 8, 12 with 0xFC and leaves the others; as an integer it is the mask
0x0ffffffc0ffffffc0ffffffc0fffffff, below 2^124; it is idempotent. The spec marks the integer form as derived. -/
def Obligations.ClampMasksR : Prop :=
  ∀ b : Vector Byte 16,
    (∀ i : Fin 16, i ∈ [3, 7, 11, 15] → (clamp b)[i] = b[i] &&& 0x0F) ∧
    (∀ i : Fin 16, i ∈ [4, 8, 12] → (clamp b)[i] = b[i] &&& 0xFC) ∧
    (∀ i : Fin 16, i ∈ [0, 1, 2, 5, 6, 9, 10, 13, 14] → (clamp b)[i] = b[i]) ∧
    leInt (clamp b).toList = leInt b.toList &&& 0x0ffffffc0ffffffc0ffffffc0fffffff ∧
    leInt (clamp b).toList ≤ 0x0ffffffc0ffffffc0ffffffc0fffffff ∧ leInt (clamp b).toList < 2 ^ 124 ∧
    clamp (clamp b) = clamp b

/-- R136: KeyGen writes CTR with 0, takes one block, and sets PR from its clamped first 16 bytes and PS from bytes 16 to 31. -/
def Obligations.KeyGenEffect : Prop :=
  ∀ (key : Vector Byte 32) (nonce : Vector Byte 12) (e : Engine),
    (keyGen key nonce e).ctr = 0 ∧ (keyGen key nonce e).ks = block key nonce 0 ∧
    (keyGen key nonce e).pr = leInt (clamp (Vector.ofFn fun i : Fin 16 => (block key nonce 0)[i.val]'(by omega))).toList ∧
    (keyGen key nonce e).ps = leInt (Vector.ofFn fun i : Fin 16 => (block key nonce 0)[16 + i.val]'(by omega)).toList ∧
    (keyGen key nonce e).acc = e.acc ∧ (keyGen key nonce e).tagc = e.tagc

/-- R138: NChunks(L) is the ceiling of L / 16; chunk k is message bytes 16k to 16k + m_k - 1; no chunk is empty and every message
byte lies in exactly one chunk; "an empty message has no chunks"; message byte t is the byte at `dmem_addr(t)`. -/
def Obligations.ChunksPartitionTheMessage : Prop :=
  ∀ (msg : Nat → Byte) (len : Nat),
    nChunks len = (len + 15) / 16 ∧ nChunks 0 = 0 ∧
    (∀ (o : OperandRegs) (m : Memory) (t : Nat), messageByte o m t = memRead m (dmemAddr o t)) ∧
    (∀ k, k < nChunks len → 1 ≤ (chunk msg len k).length ∧ (chunk msg len k).length ≤ 16 ∧
      (k < len / 16 → (chunk msg len k).length = 16) ∧ (len / 16 ≤ k → (chunk msg len k).length = len % 16) ∧
      ∀ i, i < (chunk msg len k).length → (chunk msg len k)[i]? = some (msg (16 * k + i))) ∧
    ∀ t, t < len ↔ ∃! k, k < nChunks len ∧ 16 * k ≤ t ∧ t < 16 * k + (chunk msg len k).length

/-- R139: the value of a chunk of m bytes is `le_int(c) + 2^(8*m)`, "Equivalently `ChunkValue(c) = le_int(c ++ 01)`", between
2^(8m) and 2^(8m+1) - 1; chunks of different bytes or lengths have different values; with the corner cases of the rule. -/
def Obligations.ChunkValueAppendsOneByte : Prop :=
  (∀ c : List Byte, chunkValue c = leInt c + 2 ^ (8 * c.length) ∧ chunkValue c = leInt (c ++ [0x01]) ∧
    2 ^ (8 * c.length) ≤ chunkValue c ∧ chunkValue c ≤ 2 ^ (8 * c.length + 1) - 1 ∧
    (c.length = 16 → 2 ^ 128 ≤ chunkValue c ∧ chunkValue c < 2 ^ 129)) ∧
  (∀ c d : List Byte, chunkValue c = chunkValue d → c = d) ∧
  chunkValue (List.replicate 16 0) = 2 ^ 128 ∧ chunkValue [0x00] = 0x100 ∧ chunkValue [0xff] = 0x1ff ∧
  chunkValue [0x00, 0x00] = 0x10000 ∧ chunkValue [0x75, 0x70] = 0x17075 ∧
  chunkValue [0x43, 0x72, 0x79, 0x70, 0x74, 0x6f, 0x67, 0x72, 0x61, 0x70, 0x68, 0x69, 0x63, 0x20, 0x46, 0x6f] =
    0x16f4620636968706172676f7470797243

/-- R141: after Evaluate, ACC is `(n_0 * r^q + n_1 * r^(q-1) + ... + n_(q-1) * r^1) mod P` with q = NChunks(L), a canonical residue;
PR and PS are as before. The spec marks the polynomial as derived. -/
def Obligations.EvaluateComputesThePolynomial : Prop :=
  ∀ (msg : Nat → Byte) (len : Nat) (e : Engine),
    (evaluate msg len e).acc =
      (∑ k ∈ Finset.range (nChunks len), chunkValue (chunk msg len k) * e.pr ^ (nChunks len - k)) % (2 ^ 130 - 5) ∧
    (evaluate msg len e).acc < 2 ^ 130 - 5 ∧ (evaluate msg len e).pr = e.pr ∧ (evaluate msg len e).ps = e.ps

/-- R149, R140: with ACC in [0, P), PR below 2^124 and a chunk of 1 to 16 bytes, the sum is below 3 * 2^129, the product below 2^255,
and ACC after Absorb is the residue, again in [0, P). The spec marks R149 as derived. -/
def Obligations.AbsorbMagnitudes : Prop :=
  ∀ (c : List Byte) (e : Engine), 1 ≤ c.length → c.length ≤ 16 → e.acc < 2 ^ 130 - 5 → e.pr < 2 ^ 124 →
    e.acc + chunkValue c < 3 * 2 ^ 129 ∧ (e.acc + chunkValue c) * e.pr < 2 ^ 255 ∧
    (absorb (chunkValue c) e).acc = ((e.acc + chunkValue c) * e.pr) % (2 ^ 130 - 5) ∧
    (absorb (chunkValue c) e).acc < 2 ^ 130 - 5

/-- R142: "Final tag = `(accumulator + s) mod 2^128`, serialized little-endian into 16 bytes."; nothing but TAGC changes. -/
def Obligations.FinalizeEffect : Prop :=
  ∀ e : Engine, leInt (finalize e).tagc.toList = (e.acc + e.ps) % 2 ^ 128 ∧
    (∀ i : Fin 16, (finalize e).tagc[i].toNat = (e.acc + e.ps) % 2 ^ 128 / 2 ^ (8 * i.val) % 256) ∧
    finalize e = { e with tagc := (finalize e).tagc }

/-- R144: KeyGen, Evaluate and Finalize give "equivalently `Poly1305Mac(Block(key, nonce, 0)[0 .. 31], L)`", whatever the engine
held before. -/
def Obligations.TagIsTheMacUnderTheDerivedKey : Prop :=
  ∀ (s : State) (e : Engine),
    (tagWork s.opd s).eng.tagc =
      (poly1305Mac (Vector.ofFn fun i : Fin 32 => (block (keyBytes s.opd) (nonceBytes s.opd) 0)[i.val]'(by omega))
        (fun t => memRead s.dmem (dmemAddr s.opd t)) (bufLen s.opd) e).tagc

/-- R145, R141, R142: with accepted lengths and a populated buffer TAG completes for every length, leaves DMEM, sets STATUS 1, and
TAGOUT carries `(polynomial mod P + s) mod 2^128` for the r and s of the block at counter 0. The spec marks the polynomial and the
integer form of Clamp as derived. -/
def Obligations.TagComputesTheAuthenticator : Prop :=
  ∀ s : State, s.opd.keyLen = 32 → s.opd.nonceLen = 12 →
    (∀ t, t < bufLen s.opd → dmemValid s.populated (dmemAddr s.opd t) = true) →
    ∃ tagOut : Vector Word 4,
      exec .tag s = .next { s with status := 0x00000001, tagOut := tagOut, opd := OperandRegs.zero, eng := Engine.zero } ∧
      let ks := block (keyBytes s.opd) (nonceBytes s.opd) 0
      let r := leInt (ks.toList.take 16) &&& 0x0ffffffc0ffffffc0ffffffc0fffffff
      let q := nChunks (bufLen s.opd)
      leInt (unpackWords tagOut).toList =
        ((∑ k ∈ Finset.range q,
            chunkValue (chunk (fun t => memRead s.dmem (dmemAddr s.opd t)) (bufLen s.opd) k) * r ^ (q - k)) % (2 ^ 130 - 5) +
          leInt ((ks.toList.drop 16).take 16)) % 2 ^ 128

/-- R148: the tag of the empty message is "keystream bytes 16 to 31 of `Block(key, nonce, 0)` unchanged. No DMEM byte is read.":
TAG completes whatever DMEM holds and whatever is populated. -/
def Obligations.EmptyMessageTag : Prop :=
  ∀ s : State, s.opd.keyLen = 32 → s.opd.nonceLen = 12 → bufLen s.opd = 0 →
    ∃ tagOut : Vector Word 4,
      exec .tag s = .next { s with status := 0x00000001, tagOut := tagOut, opd := OperandRegs.zero, eng := Engine.zero } ∧
      ∀ i : Fin 16, (unpackWords tagOut)[i.val]'(by omega) =
        (block (keyBytes s.opd) (nonceBytes s.opd) 0)[16 + i.val]'(by omega)

/-- R58, R138: the tag depends on the bytes of the message, not on where the buffer lies: two states with the same key, nonce, length
and message bytes, at any addresses, get the same tag. -/
def Obligations.TagDoesNotDependOnPlacement : Prop :=
  ∀ s s' t t' : State, s'.opd.key = s.opd.key → s'.opd.nonce = s.opd.nonce → bufLen s'.opd = bufLen s.opd →
    (∀ k, k < bufLen s.opd → memRead s'.dmem (dmemAddr s'.opd k) = memRead s.dmem (dmemAddr s.opd k)) →
    s.opd.keyLen = 32 → s.opd.nonceLen = 12 → s'.opd.keyLen = 32 → s'.opd.nonceLen = 12 →
    exec .tag s = .next t → exec .tag s' = .next t' → t'.tagOut = t.tagOut ∧ t'.status = t.status

/-- R146: the value `CtEq` returns "is exactly "x and y are equal as 16-byte strings"". -/
def Obligations.CompareIsEquality : Prop :=
  ∀ x y : Vector Byte 16, ctEq x y = true ↔ x = y

/-- R147: with accepted lengths and a populated buffer VERIFY completes, leaves DMEM, sets TAGOUT 0, and STATUS is 0x00000005 when
TAGIN0 to TAGIN3 hold the tag that TAG computes on the same state and 0x00000001 when they do not. -/
def Obligations.VerifyAgreesWithTag : Prop :=
  ∀ s : State, s.opd.keyLen = 32 → s.opd.nonceLen = 12 →
    (∀ t, t < bufLen s.opd → dmemValid s.populated (dmemAddr s.opd t) = true) →
    ∃ t : State, exec .tag s = .next t ∧
      exec .verify s = .next { s with status := if s.opd.tagIn = t.tagOut then 0x00000005 else 0x00000001,
                                      tagOut := Vector.replicate 4 0, opd := OperandRegs.zero, eng := Engine.zero }

/-! ### Whole-machine rules -/

/-- R41, R28, R170 and the canonical form of DMEM (log 3): every step keeps the invariant `State.Inv`, from every state that meets
it. -/
def Obligations.StepKeepsTheInvariant : Prop :=
  ∀ s t : State, s.Inv → step s = .next t → t.Inv

/-- R42: the reset state meets the invariant. The reset values of STATUS, TAGOUT and the internal state are the spec's; that DMEM is in
canonical form at reset is the model's choice, which lists nothing there (log 3). -/
def Obligations.ResetMeetsTheInvariant : Prop := State.reset.Inv

/-- R43, R171: along every run the platform's parameter stays as it is, the inputs are consumed in order, and the values returned to
the host are only added to. The queues are the model's (log 1, log 4). -/
def Obligations.RunsConsumeInputsInOrder : Prop :=
  ∀ s t : State, Reaches s t → t.populated = s.populated ∧ t.pending <:+ s.pending ∧ s.responses <+: t.responses
end

