-- ==== Sys2Proof/Laws/Bytes.lean ====
section
/-! SUPPORT. Byte order: the conversions between bytes, words and integers are inverse (R50 to R52), and buffer addresses are
distinct (R57). -/

namespace Sys2Proof.Machine

theorem leBytes32_get (w : Word) (k : Nat) (hk : k < 4) : (leBytes32 w)[k] = w.extractLsb' (8 * k) 8 := by
  have : k = 0 ∨ k = 1 ∨ k = 2 ∨ k = 3 := by omega
  rcases this with rfl | rfl | rfl | rfl <;> rfl

theorem le32_extract (b0 b1 b2 b3 : Byte) :
    (le32 b0 b1 b2 b3).extractLsb' 0 8 = b0 ∧ (le32 b0 b1 b2 b3).extractLsb' 8 8 = b1 ∧
      (le32 b0 b1 b2 b3).extractLsb' 16 8 = b2 ∧ (le32 b0 b1 b2 b3).extractLsb' 24 8 = b3 := by
  unfold le32
  refine ⟨?_, ?_, ?_, ?_⟩ <;>
  · apply BitVec.eq_of_getLsbD_eq
    intro i hi
    simp only [BitVec.getLsbD_extractLsb', BitVec.getLsbD_append, hi, decide_true, Bool.true_and]
    repeat' split
    all_goals first | omega | (congr 1; omega)

/-- `LE32` of the four bytes of a word is the word (R50). -/
theorem le32_leBytes32 (w : Word) : le32 (leBytes32 w)[0] (leBytes32 w)[1] (leBytes32 w)[2] (leBytes32 w)[3] = w := by
  show le32 (w.extractLsb' 0 8) (w.extractLsb' 8 8) (w.extractLsb' 16 8) (w.extractLsb' 24 8) = w
  unfold le32
  ext i hi
  simp only [BitVec.getElem_append, BitVec.getElem_extractLsb']
  repeat' split
  all_goals rw [← BitVec.getLsbD_eq_getElem]; congr 1; omega

/-- The bytes of `LE32` of four bytes are the bytes (R50). -/
theorem leBytes32_le32 (b0 b1 b2 b3 : Byte) : leBytes32 (le32 b0 b1 b2 b3) = #v[b0, b1, b2, b3] := by
  obtain ⟨h0, h1, h2, h3⟩ := le32_extract b0 b1 b2 b3
  simp [leBytes32, h0, h1, h2, h3]

theorem unpackWords_get {n : Nat} (r : Vector Word n) (i : Nat) (hi : i < 4 * n) :
    (unpackWords r)[i] = (leBytes32 (r[i / 4]'(by omega)))[i % 4] := by
  simp [unpackWords]

theorem packBytes_get {n : Nat} (b : Vector Byte (4 * n)) (j : Nat) (hj : j < n) :
    (packBytes b)[j] = le32 b[4 * j] b[4 * j + 1] b[4 * j + 2] b[4 * j + 3] := by
  simp [packBytes]

/-- Byte 4j + k of a group of registers is byte k of register j. -/
theorem unpackWords_get_block {n : Nat} (r : Vector Word n) (j k : Nat) (hj : j < n) (hk : k < 4) :
    (unpackWords r)[4 * j + k] = (leBytes32 r[j])[k] := by
  rw [unpackWords_get]
  have h1 : (4 * j + k) / 4 = j := by omega
  have h2 : (4 * j + k) % 4 = k := by omega
  simp [h1, h2]

/-- Packing the bytes a group of registers carries gives the registers back (R52). -/
theorem packBytes_unpackWords {n : Nat} (r : Vector Word n) : packBytes (unpackWords r) = r := by
  refine Vector.ext fun j hj => ?_
  rw [packBytes_get _ _ hj]
  have h := fun k hk => unpackWords_get_block r j k hj hk
  have h0 : (unpackWords r)[4 * j] = _ := h 0 (by omega)
  rw [h0, h 1 (by omega), h 2 (by omega), h 3 (by omega), le32_leBytes32]

/-- The bytes of packed registers are the bytes (R52). -/
theorem unpackWords_packBytes {n : Nat} (b : Vector Byte (4 * n)) : unpackWords (packBytes b) = b := by
  refine Vector.ext fun i hi => ?_
  have hq : 4 * (i / 4) + i % 4 = i := by omega
  rw [unpackWords_get, packBytes_get _ _ (by omega)]
  simp only [leBytes32_le32]
  have : i % 4 = 0 ∨ i % 4 = 1 ∨ i % 4 = 2 ∨ i % 4 = 3 := by omega
  rcases this with h | h | h | h <;> simp [h] <;> congr 2 <;> omega

theorem leInt_append (x y : List Byte) : leInt (x ++ y) = leInt x + 2 ^ (8 * x.length) * leInt y := by
  induction x with
  | nil => simp [leInt]
  | cons b x ih => simp only [List.cons_append, leInt, ih, List.length_cons]; ring

theorem leInt_lt (b : List Byte) : leInt b < 2 ^ (8 * b.length) := by
  induction b with
  | nil => simp [leInt]
  | cons b bs ih =>
    have hb := b.isLt
    simp only [leInt, List.length_cons, Nat.mul_add, Nat.pow_add, Nat.mul_one] at *
    omega

/-- Byte i of a byte string from its integer (R51). -/
theorem leInt_byte (b : List Byte) (i : Nat) (hi : i < b.length) : BitVec.ofNat 8 (leInt b / 2 ^ (8 * i) % 256) = b[i] := by
  induction b generalizing i with
  | nil => exact absurd hi (by simp)
  | cons b bs ih =>
    have hb := b.isLt
    cases i with
    | zero =>
      simp only [leInt, Nat.mul_zero, Nat.pow_zero, Nat.div_one, List.getElem_cons_zero]
      apply BitVec.eq_of_toNat_eq
      simp only [BitVec.toNat_ofNat]
      omega
    | succ i =>
      rw [List.getElem_cons_succ, ← ih i (by simpa using hi)]
      have : leInt (b :: bs) / 2 ^ (8 * (i + 1)) = leInt bs / 2 ^ (8 * i) := by
        rw [show 8 * (i + 1) = 8 + 8 * i by ring, Nat.pow_add, ← Nat.div_div_eq_div_mul]
        congr 1
        simp only [leInt]
        omega
      rw [this]

/-- `le_bytes(le_int(b), n) = b` (R51). -/
theorem leBytes_leInt {n : Nat} (b : Vector Byte n) : leBytes (leInt b.toList) n = b := by
  refine Vector.ext fun i hi => ?_
  have := leInt_byte b.toList i (by simpa using hi)
  simp only [leBytes, Vector.getElem_ofFn]
  rw [this, Vector.getElem_toList]

theorem leInt_range (v n : Nat) :
    leInt ((List.range n).map fun i => BitVec.ofNat 8 (v / 2 ^ (8 * i) % 256)) = v % 2 ^ (8 * n) := by
  induction n with
  | zero => simp [leInt, Nat.mod_one]
  | succ n ih =>
    rw [List.range_succ, List.map_append, leInt_append, ih]
    simp only [List.map_cons, List.map_nil, leInt, List.length_map, List.length_range, BitVec.toNat_ofNat, Nat.mul_zero,
      Nat.add_zero]
    rw [show 8 * (n + 1) = 8 * n + 8 by ring, Nat.pow_add, Nat.mod_mul]
    norm_num

/-- `le_int(le_bytes(v, n)) = v` on the domain of R51. -/
theorem leInt_leBytes {v n : Nat} (hv : v < 2 ^ (8 * n)) : leInt (leBytes v n).toList = v := by
  have : (leBytes v n).toList = (List.range n).map fun i => BitVec.ofNat 8 (v / 2 ^ (8 * i) % 256) := by
    apply List.ext_getElem <;> simp [leBytes]
  rw [this, leInt_range, Nat.mod_eq_of_lt hv]

/-- A sub-string of a sub-string is a sub-string. -/
theorem slice_slice {n lo len lo' len' : Nat} (b : Vector Byte n) (h : lo + len ≤ n) (h' : lo' + len' ≤ len) :
    slice (slice b lo len h) lo' len' h' = slice b (lo + lo') len' (by omega) := by
  apply Vector.ext
  intro i hi
  simp [slice, Nat.add_assoc]

/-- The bytes of a sub-string as a list. -/
theorem slice_toList {n lo len : Nat} (b : Vector Byte n) (h : lo + len ≤ n) :
    (slice b lo len h).toList = (b.toList.drop lo).take len := by
  apply List.ext_getElem
  · simp; omega
  · intro i h1 h2
    simp [slice]

theorem bufLen_lt (o : OperandRegs) : bufLen o < 2 ^ 64 := by
  have h1 := o.bufLenHi.isLt
  have h2 := o.bufLenLo.isLt
  unfold bufLen
  omega

/-- The address of buffer byte i as a number (R57). -/
theorem dmemAddr_toNat (o : OperandRegs) (i : Nat) : (dmemAddr o i).toNat = ((bufAddr o).toNat + i) % 2 ^ 64 := by
  simp [dmemAddr, BitVec.toNat_add, BitVec.toNat_ofNat, Nat.add_mod]

/-- Distinct buffer bytes have distinct addresses (R57). -/
theorem dmemAddr_inj {o : OperandRegs} {i j : Nat} (hi : i < 2 ^ 64) (hj : j < 2 ^ 64) (h : dmemAddr o i = dmemAddr o j) :
    i = j := by
  have := congrArg BitVec.toNat h
  rw [dmemAddr_toNat, dmemAddr_toNat] at this
  have := (bufAddr o).isLt
  omega

end Sys2Proof.Machine
end

