-- ==== Sys2Proof/Laws/State.lean ====
section
/-! SUPPORT. What each update of the state leaves in each field, one lemma a field, so that no later proof unfolds an update. -/

namespace Sys2Proof.Machine

/-! The setters of the engine, register by register. -/

@[simp] theorem setBlock_w (w : Vector Word 16) (ks : Vector Byte 64) (e : Engine) : (setBlock w ks e).w = w := rfl
@[simp] theorem setBlock_ctr (w : Vector Word 16) (ks : Vector Byte 64) (e : Engine) : (setBlock w ks e).ctr = e.ctr := rfl
@[simp] theorem setBlock_ks (w : Vector Word 16) (ks : Vector Byte 64) (e : Engine) : (setBlock w ks e).ks = ks := rfl
@[simp] theorem setBlock_pr (w : Vector Word 16) (ks : Vector Byte 64) (e : Engine) : (setBlock w ks e).pr = e.pr := rfl
@[simp] theorem setBlock_ps (w : Vector Word 16) (ks : Vector Byte 64) (e : Engine) : (setBlock w ks e).ps = e.ps := rfl
@[simp] theorem setBlock_acc (w : Vector Word 16) (ks : Vector Byte 64) (e : Engine) : (setBlock w ks e).acc = e.acc := rfl
@[simp] theorem setBlock_tagc (w : Vector Word 16) (ks : Vector Byte 64) (e : Engine) : (setBlock w ks e).tagc = e.tagc := rfl

@[simp] theorem setCtr_w (v : Word) (e : Engine) : (setCtr v e).w = e.w := rfl
@[simp] theorem setCtr_ctr (v : Word) (e : Engine) : (setCtr v e).ctr = v := rfl
@[simp] theorem setCtr_ks (v : Word) (e : Engine) : (setCtr v e).ks = e.ks := rfl
@[simp] theorem setCtr_pr (v : Word) (e : Engine) : (setCtr v e).pr = e.pr := rfl
@[simp] theorem setCtr_ps (v : Word) (e : Engine) : (setCtr v e).ps = e.ps := rfl
@[simp] theorem setCtr_acc (v : Word) (e : Engine) : (setCtr v e).acc = e.acc := rfl
@[simp] theorem setCtr_tagc (v : Word) (e : Engine) : (setCtr v e).tagc = e.tagc := rfl

@[simp] theorem setOneTimeKey_w (r s : Nat) (e : Engine) : (setOneTimeKey r s e).w = e.w := rfl
@[simp] theorem setOneTimeKey_ctr (r s : Nat) (e : Engine) : (setOneTimeKey r s e).ctr = e.ctr := rfl
@[simp] theorem setOneTimeKey_ks (r s : Nat) (e : Engine) : (setOneTimeKey r s e).ks = e.ks := rfl
@[simp] theorem setOneTimeKey_pr (r s : Nat) (e : Engine) : (setOneTimeKey r s e).pr = r := rfl
@[simp] theorem setOneTimeKey_ps (r s : Nat) (e : Engine) : (setOneTimeKey r s e).ps = s := rfl
@[simp] theorem setOneTimeKey_acc (r s : Nat) (e : Engine) : (setOneTimeKey r s e).acc = e.acc := rfl
@[simp] theorem setOneTimeKey_tagc (r s : Nat) (e : Engine) : (setOneTimeKey r s e).tagc = e.tagc := rfl

@[simp] theorem setAcc_w (v : Nat) (e : Engine) : (setAcc v e).w = e.w := rfl
@[simp] theorem setAcc_ctr (v : Nat) (e : Engine) : (setAcc v e).ctr = e.ctr := rfl
@[simp] theorem setAcc_ks (v : Nat) (e : Engine) : (setAcc v e).ks = e.ks := rfl
@[simp] theorem setAcc_pr (v : Nat) (e : Engine) : (setAcc v e).pr = e.pr := rfl
@[simp] theorem setAcc_ps (v : Nat) (e : Engine) : (setAcc v e).ps = e.ps := rfl
@[simp] theorem setAcc_acc (v : Nat) (e : Engine) : (setAcc v e).acc = v := rfl
@[simp] theorem setAcc_tagc (v : Nat) (e : Engine) : (setAcc v e).tagc = e.tagc := rfl

@[simp] theorem setTagc_w (v : Vector Byte 16) (e : Engine) : (setTagc v e).w = e.w := rfl
@[simp] theorem setTagc_ctr (v : Vector Byte 16) (e : Engine) : (setTagc v e).ctr = e.ctr := rfl
@[simp] theorem setTagc_ks (v : Vector Byte 16) (e : Engine) : (setTagc v e).ks = e.ks := rfl
@[simp] theorem setTagc_pr (v : Vector Byte 16) (e : Engine) : (setTagc v e).pr = e.pr := rfl
@[simp] theorem setTagc_ps (v : Vector Byte 16) (e : Engine) : (setTagc v e).ps = e.ps := rfl
@[simp] theorem setTagc_acc (v : Vector Byte 16) (e : Engine) : (setTagc v e).acc = e.acc := rfl
@[simp] theorem setTagc_tagc (v : Vector Byte 16) (e : Engine) : (setTagc v e).tagc = v := rfl

/-! The setters of the state, field by field. -/

@[simp] theorem setEng_eng (e : Engine) (s : State) : (setEng e s).eng = e := rfl
@[simp] theorem setEng_opd (e : Engine) (s : State) : (setEng e s).opd = s.opd := rfl
@[simp] theorem setEng_status (e : Engine) (s : State) : (setEng e s).status = s.status := rfl
@[simp] theorem setEng_tagOut (e : Engine) (s : State) : (setEng e s).tagOut = s.tagOut := rfl
@[simp] theorem setEng_dmem (e : Engine) (s : State) : (setEng e s).dmem = s.dmem := rfl
@[simp] theorem setEng_populated (e : Engine) (s : State) : (setEng e s).populated = s.populated := rfl
@[simp] theorem setEng_pending (e : Engine) (s : State) : (setEng e s).pending = s.pending := rfl
@[simp] theorem setEng_responses (e : Engine) (s : State) : (setEng e s).responses = s.responses := rfl

@[simp] theorem setDmem_eng (m : Memory) (s : State) : (setDmem m s).eng = s.eng := rfl
@[simp] theorem setDmem_opd (m : Memory) (s : State) : (setDmem m s).opd = s.opd := rfl
@[simp] theorem setDmem_status (m : Memory) (s : State) : (setDmem m s).status = s.status := rfl
@[simp] theorem setDmem_tagOut (m : Memory) (s : State) : (setDmem m s).tagOut = s.tagOut := rfl
@[simp] theorem setDmem_dmem (m : Memory) (s : State) : (setDmem m s).dmem = m := rfl
@[simp] theorem setDmem_populated (m : Memory) (s : State) : (setDmem m s).populated = s.populated := rfl
@[simp] theorem setDmem_pending (m : Memory) (s : State) : (setDmem m s).pending = s.pending := rfl
@[simp] theorem setDmem_responses (m : Memory) (s : State) : (setDmem m s).responses = s.responses := rfl

@[simp] theorem setOpd_eng (o : OperandRegs) (s : State) : (setOpd o s).eng = s.eng := rfl
@[simp] theorem setOpd_opd (o : OperandRegs) (s : State) : (setOpd o s).opd = o := rfl
@[simp] theorem setOpd_status (o : OperandRegs) (s : State) : (setOpd o s).status = s.status := rfl
@[simp] theorem setOpd_tagOut (o : OperandRegs) (s : State) : (setOpd o s).tagOut = s.tagOut := rfl
@[simp] theorem setOpd_dmem (o : OperandRegs) (s : State) : (setOpd o s).dmem = s.dmem := rfl
@[simp] theorem setOpd_populated (o : OperandRegs) (s : State) : (setOpd o s).populated = s.populated := rfl
@[simp] theorem setOpd_pending (o : OperandRegs) (s : State) : (setOpd o s).pending = s.pending := rfl
@[simp] theorem setOpd_responses (o : OperandRegs) (s : State) : (setOpd o s).responses = s.responses := rfl

/-! `respond` -/

@[simp] theorem respond_eng (v : Word) (s : State) : (respond v s).eng = s.eng := rfl
@[simp] theorem respond_opd (v : Word) (s : State) : (respond v s).opd = s.opd := rfl
@[simp] theorem respond_status (v : Word) (s : State) : (respond v s).status = s.status := rfl
@[simp] theorem respond_tagOut (v : Word) (s : State) : (respond v s).tagOut = s.tagOut := rfl
@[simp] theorem respond_dmem (v : Word) (s : State) : (respond v s).dmem = s.dmem := rfl
@[simp] theorem respond_populated (v : Word) (s : State) : (respond v s).populated = s.populated := rfl
@[simp] theorem respond_pending (v : Word) (s : State) : (respond v s).pending = s.pending := rfl
@[simp] theorem respond_responses (v : Word) (s : State) : (respond v s).responses = s.responses ++ [v] := rfl

/-! `writeResults` -/

@[simp] theorem writeResults_eng (oc : CommandOutcome) (s : State) : (writeResults oc s).eng = s.eng := rfl
@[simp] theorem writeResults_opd (oc : CommandOutcome) (s : State) : (writeResults oc s).opd = s.opd := rfl
@[simp] theorem writeResults_status (oc : CommandOutcome) (s : State) : (writeResults oc s).status = outcomeStatus oc := rfl
@[simp] theorem writeResults_tagOut (oc : CommandOutcome) (s : State) : (writeResults oc s).tagOut = outcomeTagOut oc := rfl
@[simp] theorem writeResults_dmem (oc : CommandOutcome) (s : State) : (writeResults oc s).dmem = s.dmem := rfl
@[simp] theorem writeResults_populated (oc : CommandOutcome) (s : State) : (writeResults oc s).populated = s.populated := rfl
@[simp] theorem writeResults_pending (oc : CommandOutcome) (s : State) : (writeResults oc s).pending = s.pending := rfl
@[simp] theorem writeResults_responses (oc : CommandOutcome) (s : State) : (writeResults oc s).responses = s.responses := rfl

/-! `completionClear` -/

@[simp] theorem completionClear_eng (s : State) : (completionClear s).eng = Engine.zero := rfl
@[simp] theorem completionClear_opd (s : State) : (completionClear s).opd = OperandRegs.zero := rfl
@[simp] theorem completionClear_status (s : State) : (completionClear s).status = s.status := rfl
@[simp] theorem completionClear_tagOut (s : State) : (completionClear s).tagOut = s.tagOut := rfl
@[simp] theorem completionClear_dmem (s : State) : (completionClear s).dmem = s.dmem := rfl
@[simp] theorem completionClear_populated (s : State) : (completionClear s).populated = s.populated := rfl
@[simp] theorem completionClear_pending (s : State) : (completionClear s).pending = s.pending := rfl
@[simp] theorem completionClear_responses (s : State) : (completionClear s).responses = s.responses := rfl

/-! `finish` -/

@[simp] theorem finish_eng (oc : CommandOutcome) (s : State) : (finish oc s).eng = Engine.zero := rfl
@[simp] theorem finish_opd (oc : CommandOutcome) (s : State) : (finish oc s).opd = OperandRegs.zero := rfl
@[simp] theorem finish_status (oc : CommandOutcome) (s : State) : (finish oc s).status = outcomeStatus oc := rfl
@[simp] theorem finish_tagOut (oc : CommandOutcome) (s : State) : (finish oc s).tagOut = outcomeTagOut oc := rfl
@[simp] theorem finish_dmem (oc : CommandOutcome) (s : State) : (finish oc s).dmem = s.dmem := rfl
@[simp] theorem finish_populated (oc : CommandOutcome) (s : State) : (finish oc s).populated = s.populated := rfl
@[simp] theorem finish_pending (oc : CommandOutcome) (s : State) : (finish oc s).pending = s.pending := rfl
@[simp] theorem finish_responses (oc : CommandOutcome) (s : State) : (finish oc s).responses = s.responses := rfl

/-! `raiseError` -/

@[simp] theorem raiseError_eng (e : StructuralError) (s : State) : (raiseError e s).eng = Engine.zero := rfl
@[simp] theorem raiseError_opd (e : StructuralError) (s : State) : (raiseError e s).opd = OperandRegs.zero := rfl
@[simp] theorem raiseError_status (e : StructuralError) (s : State) : (raiseError e s).status = outcomeStatus (.error e) := rfl
@[simp] theorem raiseError_tagOut (e : StructuralError) (s : State) : (raiseError e s).tagOut = Vector.replicate 4 0 := rfl
@[simp] theorem raiseError_dmem (e : StructuralError) (s : State) : (raiseError e s).dmem = s.dmem := rfl
@[simp] theorem raiseError_populated (e : StructuralError) (s : State) : (raiseError e s).populated = s.populated := rfl
@[simp] theorem raiseError_pending (e : StructuralError) (s : State) : (raiseError e s).pending = s.pending := rfl
@[simp] theorem raiseError_responses (e : StructuralError) (s : State) : (raiseError e s).responses = s.responses := rfl

/-! `hardwareReset` -/

@[simp] theorem hardwareReset_eng (s : State) : (hardwareReset s).eng = Engine.zero := rfl
@[simp] theorem hardwareReset_opd (s : State) : (hardwareReset s).opd = OperandRegs.zero := rfl
@[simp] theorem hardwareReset_status (s : State) : (hardwareReset s).status = 0 := rfl
@[simp] theorem hardwareReset_tagOut (s : State) : (hardwareReset s).tagOut = Vector.replicate 4 0 := rfl
@[simp] theorem hardwareReset_dmem (s : State) : (hardwareReset s).dmem = s.dmem := rfl
@[simp] theorem hardwareReset_populated (s : State) : (hardwareReset s).populated = s.populated := rfl
@[simp] theorem hardwareReset_pending (s : State) : (hardwareReset s).pending = s.pending := rfl
@[simp] theorem hardwareReset_responses (s : State) : (hardwareReset s).responses = s.responses := rfl

/-- `finish` as one record: the whole effect of steps 3 and 4 of the command frame. -/
theorem finish_eq (oc : CommandOutcome) (s : State) :
    finish oc s =
      { s with status := outcomeStatus oc, tagOut := outcomeTagOut oc, opd := OperandRegs.zero, eng := Engine.zero } := rfl

/-- `raiseError` as one record. -/
theorem raiseError_eq (e : StructuralError) (s : State) :
    raiseError e s =
      { s with status := outcomeStatus (.error e), tagOut := Vector.replicate 4 0, opd := OperandRegs.zero,
               eng := Engine.zero } := rfl

/-- CLEAR leaves what reset leaves (R167, R210). -/
theorem finish_cleared_eq_hardwareReset (s : State) : finish .cleared s = hardwareReset s := by
  rw [finish_eq]; rfl

/-- Two states are equal when their eight fields are. -/
theorem State.eq_of_fields {s t : State} (h1 : s.eng = t.eng) (h2 : s.opd = t.opd) (h3 : s.status = t.status)
    (h4 : s.tagOut = t.tagOut) (h5 : s.dmem = t.dmem) (h6 : s.populated = t.populated) (h7 : s.pending = t.pending)
    (h8 : s.responses = t.responses) : s = t := by
  cases s; cases t; simp_all

end Sys2Proof.Machine
end

