-- ==== Sys2Proof/Laws/BlockEngine.lean ====
section
/-! SUPPORT. The Block Engine: what a stage writes and leaves, what the initial state holds, and what `runBlock` leaves in the
engine. -/

namespace Sys2Proof.Machine

/-- A stage word by word (R93). -/
theorem arxStage_get (x y z : Fin 16) (n : Fin 32) (w : Vector Word 16) (hxz : x ≠ z) (i : Fin 16) :
    (arxStage x y z n w)[i] =
      if i = x then w[x] + w[y] else if i = z then (w[z] ^^^ (w[x] + w[y])).rotateLeft n.val else w[i] := by
  have e : ∀ a b : Fin 16, (a.val = b.val) = (a = b) := fun a b => by rw [Fin.ext_iff]
  simp only [arxStage, add32, xor32, rotl32, Fin.getElem_fin, Vector.getElem_set, e]
  have hzx : ¬ z = x := fun h => hxz h.symm
  by_cases h1 : z = i
  · subst h1; simp [hzx, hxz]
  · by_cases h2 : x = i
    · subst h2; simp [h1]
    · simp [h1, h2, Ne.symm h1, Ne.symm h2]

@[simp] theorem runBlock_ks (key : Vector Byte 32) (nonce : Vector Byte 12) (e : Engine) :
    (runBlock key nonce e).ks = block key nonce e.ctr := rfl

@[simp] theorem runBlock_w (key : Vector Byte 32) (nonce : Vector Byte 12) (e : Engine) :
    (runBlock key nonce e).w = rounds20 (initState key nonce e.ctr) := rfl

@[simp] theorem runBlock_ctr (key : Vector Byte 32) (nonce : Vector Byte 12) (e : Engine) :
    (runBlock key nonce e).ctr = e.ctr := setBlock_ctr _ _ e

@[simp] theorem runBlock_pr (key : Vector Byte 32) (nonce : Vector Byte 12) (e : Engine) :
    (runBlock key nonce e).pr = e.pr := setBlock_pr _ _ e

@[simp] theorem runBlock_ps (key : Vector Byte 32) (nonce : Vector Byte 12) (e : Engine) :
    (runBlock key nonce e).ps = e.ps := setBlock_ps _ _ e

@[simp] theorem runBlock_acc (key : Vector Byte 32) (nonce : Vector Byte 12) (e : Engine) :
    (runBlock key nonce e).acc = e.acc := setBlock_acc _ _ e

@[simp] theorem runBlock_tagc (key : Vector Byte 32) (nonce : Vector Byte 12) (e : Engine) :
    (runBlock key nonce e).tagc = e.tagc := setBlock_tagc _ _ e

/-- With the key and nonce taken from the registers, S is the constants, the key registers, the counter and the nonce registers
(R94). -/
theorem initState_registers (o : OperandRegs) (ctr : Word) :
    initState (keyBytes o) (nonceBytes o) ctr = chachaConst ++ o.key ++ #v[ctr] ++ o.nonce := by
  unfold initState keyBytes nonceBytes
  rw [packBytes_unpackWords, packBytes_unpackWords]

/-- Word i of a state laid out as constants, key, counter and nonce (R94). -/
theorem stateWords_get (con : Vector Word 4) (k : Vector Word 8) (ctr : Word) (n : Vector Word 3) (i : Nat) (hi : i < 16) :
    (con ++ k ++ #v[ctr] ++ n)[i] =
      if h4 : i < 4 then con[i] else if h12 : i < 12 then k[i - 4] else if h13 : i < 13 then ctr else n[i - 13] := by
  by_cases h13 : i < 13
  · rw [Vector.getElem_append_left (by omega)]
    by_cases h12 : i < 12
    · rw [Vector.getElem_append_left (by omega)]
      by_cases h4 : i < 4
      · rw [Vector.getElem_append_left h4, dif_pos h4]
      · rw [Vector.getElem_append_right (by omega) (by omega), dif_neg h4, dif_pos h12]
    · rw [Vector.getElem_append_right (by omega) (by omega), dif_neg (by omega), dif_neg h12, dif_pos h13]
      simp
  · rw [Vector.getElem_append_right (by omega) (by omega), dif_neg (by omega), dif_neg (by omega), dif_neg h13]

end Sys2Proof.Machine
end

