-- ==== Sys2Proof/Laws/Loop.lean ====
section
/-! SUPPORT. The counting loop `forUp`, with its induction packaged once. -/

namespace Sys2Proof.Machine

variable {α β : Type}

@[simp] theorem forUp_zero (body : Nat → α → α) (x : α) : forUp 0 body x = x := rfl

@[simp] theorem forUp_succ (n : Nat) (body : Nat → α → α) (x : α) :
    forUp (n + 1) body x = body n (forUp n body x) := rfl

/-- What holds before the loop and is kept by every iteration holds after it. -/
theorem forUp_induct (P : Nat → α → Prop) {n : Nat} {body : Nat → α → α} {x : α} (start : P 0 x)
    (keep : ∀ i y, i < n → P i y → P (i + 1) (body i y)) : P n (forUp n body x) := by
  induction n with
  | zero => exact start
  | succ n ih => exact keep n _ (Nat.lt_succ_self n) (ih fun i y hi => keep i y (by omega))

/-- Loops with bodies that agree below the bound agree. -/
theorem forUp_congr {n : Nat} {f g : Nat → α → α} (h : ∀ i y, i < n → f i y = g i y) (x : α) :
    forUp n f x = forUp n g x := by
  induction n with
  | zero => rfl
  | succ n ih => simp [ih fun i y hi => h i y (by omega), h n _ (Nat.lt_succ_self n)]

/-- A view of the state that every iteration carries along follows a loop of its own. -/
theorem forUp_view (view : α → β) {f : Nat → α → α} {g : Nat → β → β} (n : Nat) (x : α)
    (h : ∀ i y, i < n → view (f i y) = g i (view y)) : view (forUp n f x) = forUp n g (view x) := by
  induction n with
  | zero => rfl
  | succ n ih => simp [h n _ (Nat.lt_succ_self n), ih fun i y hi => h i y (by omega)]

/-- A view of the state that no iteration changes is unchanged by the loop. -/
theorem forUp_fixed (view : α → β) {f : Nat → α → α} (n : Nat) (x : α) (h : ∀ i y, view (f i y) = view y) :
    view (forUp n f x) = view x := by
  induction n with
  | zero => rfl
  | succ n ih => simp [h, ih]

end Sys2Proof.Machine
end

