-- ==== Sys2Proof/Laws/Authenticator.lean ====
section
/-! SUPPORT. The authenticator: what each operation leaves in each register of the engine, the polynomial that Evaluate computes,
and the tag as a function of the message. -/

namespace Sys2Proof.Machine

/-! What `loadOneTimeKey`, `keyGen`, `absorb`, `evaluate` and `finalize` leave in PR, PS, ACC, TAGC. -/

@[simp] theorem loadOneTimeKey_pr (otk : Vector Byte 32) (e : Engine) :
    (loadOneTimeKey otk e).pr = leInt (clamp (slice otk 0 16 (by decide))).toList :=
  setOneTimeKey_pr _ _ e

@[simp] theorem loadOneTimeKey_ps (otk : Vector Byte 32) (e : Engine) :
    (loadOneTimeKey otk e).ps = leInt (slice otk 16 16 (by decide)).toList :=
  setOneTimeKey_ps _ _ e

@[simp] theorem loadOneTimeKey_w (otk : Vector Byte 32) (e : Engine) : (loadOneTimeKey otk e).w = e.w :=
  setOneTimeKey_w _ _ e

@[simp] theorem loadOneTimeKey_ctr (otk : Vector Byte 32) (e : Engine) : (loadOneTimeKey otk e).ctr = e.ctr :=
  setOneTimeKey_ctr _ _ e

@[simp] theorem loadOneTimeKey_ks (otk : Vector Byte 32) (e : Engine) : (loadOneTimeKey otk e).ks = e.ks :=
  setOneTimeKey_ks _ _ e

@[simp] theorem loadOneTimeKey_acc (otk : Vector Byte 32) (e : Engine) : (loadOneTimeKey otk e).acc = e.acc :=
  setOneTimeKey_acc _ _ e

@[simp] theorem loadOneTimeKey_tagc (otk : Vector Byte 32) (e : Engine) : (loadOneTimeKey otk e).tagc = e.tagc :=
  setOneTimeKey_tagc _ _ e

@[simp] theorem absorb_acc (n : Nat) (e : Engine) : (absorb n e).acc = ((e.acc + n) * e.pr) % polyP := rfl

@[simp] theorem absorb_pr (n : Nat) (e : Engine) : (absorb n e).pr = e.pr := rfl

@[simp] theorem absorb_ps (n : Nat) (e : Engine) : (absorb n e).ps = e.ps := rfl

@[simp] theorem evaluate_pr (msg : Nat → Byte) (len : Nat) (e : Engine) : (evaluate msg len e).pr = e.pr :=
  forUp_fixed Engine.pr _ (setAcc 0 e) fun _ _ => rfl

@[simp] theorem evaluate_ps (msg : Nat → Byte) (len : Nat) (e : Engine) : (evaluate msg len e).ps = e.ps :=
  forUp_fixed Engine.ps _ (setAcc 0 e) fun _ _ => rfl

@[simp] theorem finalize_tagc (e : Engine) : (finalize e).tagc = leBytes ((e.acc + e.ps) % 2 ^ 128) 16 :=
  setTagc_tagc _ e

/-- The one-time key that `keyGen` loads is the first half of the block at counter 0 (R136). -/
theorem keyGen_eq (key : Vector Byte 32) (nonce : Vector Byte 12) (e : Engine) :
    keyGen key nonce e = loadOneTimeKey (slice (block key nonce 0) 0 32 (by decide)) (runBlock key nonce (setCtr 0 e)) := by
  simp only [keyGen, runBlock_ks, setCtr_ctr]

/-- The accumulator over the first q chunks, as a loop over ACC alone. -/
def accAfter (msg : Nat → Byte) (len r : Nat) (q : Nat) : Nat :=
  forUp q (fun k a => ((a + chunkValue (chunk msg len k)) * r) % polyP) 0

theorem evaluate_acc (msg : Nat → Byte) (len : Nat) (e : Engine) :
    (evaluate msg len e).acc = accAfter msg len e.pr (nChunks len) := by
  suffices h : ∀ q, (forUp q (fun k => absorb (chunkValue (chunk msg len k))) (setAcc 0 e)).acc =
        accAfter msg len e.pr q ∧
      (forUp q (fun k => absorb (chunkValue (chunk msg len k))) (setAcc 0 e)).pr = e.pr from (h _).1
  intro q
  induction q with
  | zero => exact ⟨rfl, rfl⟩
  | succ q ih =>
    rw [forUp_succ, absorb_acc, absorb_pr, ih.1, ih.2]
    exact ⟨rfl, rfl⟩

theorem polyP_pos : 0 < polyP := by decide

/-- ACC is a canonical residue between Absorb steps (R149). -/
theorem accAfter_lt (msg : Nat → Byte) (len r q : Nat) : accAfter msg len r q < polyP := by
  cases q with
  | zero => exact polyP_pos
  | succ q => exact Nat.mod_lt _ polyP_pos

/-- The polynomial of R141: `(n_0 * r^q + n_1 * r^(q-1) + ... + n_(q-1) * r) mod P`. -/
theorem accAfter_polynomial (msg : Nat → Byte) (len r q : Nat) :
    accAfter msg len r q = (∑ k ∈ Finset.range q, chunkValue (chunk msg len k) * r ^ (q - k)) % polyP := by
  induction q with
  | zero => rfl
  | succ q ih =>
    show ((accAfter msg len r q + chunkValue (chunk msg len q)) * r) % polyP = _
    rw [Finset.sum_range_succ, ih, Nat.mul_mod, Nat.mod_add_mod, ← Nat.mul_mod, Nat.add_mul, Finset.sum_mul]
    congr 1
    congr 1
    · refine Finset.sum_congr rfl fun k hk => ?_
      rw [Finset.mem_range] at hk
      rw [show q + 1 - k = q - k + 1 by omega, Nat.pow_succ, Nat.mul_assoc]
    · simp

/-- The tag of a message of `len` bytes under a one-time key (R143). -/
def macTag (otk : Vector Byte 32) (msg : Nat → Byte) (len : Nat) : Vector Byte 16 :=
  leBytes ((accAfter msg len (leInt (clamp (slice otk 0 16 (by decide))).toList) (nChunks len) + leInt (slice otk 16 16 (by decide)).toList) % 2 ^ 128) 16

theorem poly1305Mac_tagc (otk : Vector Byte 32) (msg : Nat → Byte) (len : Nat) (e : Engine) :
    (poly1305Mac otk msg len e).tagc = macTag otk msg len := by
  simp [poly1305Mac, macTag, evaluate_acc]

/-- TAGC after the work of TAG and VERIFY: the tag under the one-time key of the block at counter 0 (R144). -/
theorem tagWork_tagc (o : OperandRegs) (s : State) :
    (tagWork o s).eng.tagc =
      macTag (slice (block (keyBytes o) (nonceBytes o) 0) 0 32 (by decide)) (messageByte o s.dmem) (bufLen o) := by
  simp [tagWork, keyGen_eq, macTag, evaluate_acc]

/-! `tagWork` touches the engine only. -/

@[simp] theorem tagWork_opd (o : OperandRegs) (s : State) : (tagWork o s).opd = s.opd := setEng_opd _ s

@[simp] theorem tagWork_status (o : OperandRegs) (s : State) : (tagWork o s).status = s.status := setEng_status _ s

@[simp] theorem tagWork_tagOut (o : OperandRegs) (s : State) : (tagWork o s).tagOut = s.tagOut := setEng_tagOut _ s

@[simp] theorem tagWork_dmem (o : OperandRegs) (s : State) : (tagWork o s).dmem = s.dmem := setEng_dmem _ s

@[simp] theorem tagWork_populated (o : OperandRegs) (s : State) : (tagWork o s).populated = s.populated := setEng_populated _ s

@[simp] theorem tagWork_pending (o : OperandRegs) (s : State) : (tagWork o s).pending = s.pending := setEng_pending _ s

@[simp] theorem tagWork_responses (o : OperandRegs) (s : State) : (tagWork o s).responses = s.responses := setEng_responses _ s

/-- The OR-fold of `CtEq` over some of the byte pairs stays 0 exactly when it starts at 0 and those pairs are equal (R146). -/
theorem ctEq_fold (x y : Vector Byte 16) (l : List (Fin 16)) (d : Byte) :
    l.foldl (fun d i => d ||| (x[i] ^^^ y[i])) d = 0#8 ↔ d = 0#8 ∧ ∀ i ∈ l, x[i] = y[i] := by
  induction l generalizing d with
  | nil => simp
  | cons i l ih =>
    rw [List.foldl_cons, ih, BitVec.or_eq_zero_iff, BitVec.xor_eq_zero_iff]
    simp [and_assoc]

end Sys2Proof.Machine
end

