-- ==== Sys2Proof/Laws/Encoding.lean ====
section
/-! SUPPORT. The fields of a bus transaction and of a command word: reading a field of an assembled word gives it back, and a word is
its fields. -/

namespace Sys2Proof

@[simp] theorem busWe_busWord (we : BitVec 1) (o : Offset) (v : Word) : busWe (busWord we o v) = we.getLsbD 0 := by
  simp only [busWe, busWord, BitVec.getLsbD_append]
  rfl

@[simp] theorem busOffset_busWord (we : BitVec 1) (o : Offset) (v : Word) : busOffset (busWord we o v) = o := by
  unfold busOffset busWord
  apply BitVec.eq_of_getLsbD_eq
  intro i hi
  simp only [BitVec.getLsbD_extractLsb', BitVec.getLsbD_append, hi, decide_true, Bool.true_and]
  repeat' split
  all_goals first | omega | (congr 1; omega)

@[simp] theorem busWdata_busWord (we : BitVec 1) (o : Offset) (v : Word) : busWdata (busWord we o v) = v := by
  unfold busWdata busWord
  apply BitVec.eq_of_getLsbD_eq
  intro i hi
  simp only [BitVec.getLsbD_extractLsb', BitVec.getLsbD_append, hi, decide_true, Bool.true_and]
  repeat' split
  all_goals first | omega | (congr 1; omega)

/-- A transaction is its three fields. -/
theorem busWord_fields (t : Transaction) : busWord (BitVec.ofBool (busWe t)) (busOffset t) (busWdata t) = t := by
  unfold busOffset busWdata busWord busWe
  apply BitVec.eq_of_getLsbD_eq
  intro i hi
  simp only [BitVec.getLsbD_append, BitVec.getLsbD_extractLsb', BitVec.getLsbD_ofBool]
  by_cases h1 : i < 32
  · simp [h1]
  · by_cases h2 : i < 40
    · have h3 : i - 32 < 8 := by omega
      have h4 : 32 + (i - 32) = i := by omega
      simp [h1, h3, h4]
    · have h3 : ¬ i - 32 < 8 := by omega
      have h4 : i = 40 := by omega
      subst h4
      simp

/-- A command word whose reserved bits are 0 is its operation code (R72). -/
theorem cmdFields_iff (c : Word) (k : BitVec 8) : (cmdRsvz c = 0#24 ∧ cmdOpc c = k) ↔ c = k.setWidth 32 := by
  unfold cmdRsvz cmdOpc
  constructor
  · rintro ⟨h1, rfl⟩
    apply BitVec.eq_of_getLsbD_eq
    intro i hi
    simp only [BitVec.getLsbD_setWidth, BitVec.getLsbD_extractLsb', hi, decide_true, Bool.true_and]
    by_cases h8 : i < 8
    · simp [h8]
    · have h := congrArg (fun b => b.getLsbD (i - 8)) h1
      simp only [BitVec.getLsbD_extractLsb', BitVec.getLsbD_zero] at h
      rw [show 8 + (i - 8) = i by omega] at h
      simpa [h8, show i - 8 < 24 by omega] using h
  · rintro rfl
    constructor
    · apply BitVec.eq_of_getLsbD_eq
      intro i hi
      simp only [BitVec.getLsbD_extractLsb', BitVec.getLsbD_setWidth, BitVec.getLsbD_zero]
      rw [BitVec.getLsbD_of_ge k (8 + i) (by omega)]
      simp
    · apply BitVec.eq_of_getLsbD_eq
      intro i hi
      simp only [BitVec.getLsbD_extractLsb', BitVec.getLsbD_setWidth, Nat.zero_add, hi, decide_true, Bool.true_and]
      simp [show i < 32 by omega]

end Sys2Proof
end

