-- ==== Sys2Proof/Laws/Memory.lean ====
section
/-! SUPPORT. DMEM: read after write, the canonical form, and that equal reads mean equal lists. -/

namespace Sys2Proof.Machine

@[simp] theorem memRead_nil (a : Addr) : memRead [] a = Config.unlistedByte := rfl

theorem memRead_cons (b : Nat) (v : Byte) (m : Memory) (a : Addr) :
    memRead ((b, v) :: m) a = if b = a.toNat then v else memRead m a := rfl

theorem memWfFrom_cons {lo b : Nat} {v : Byte} {m : Memory} :
    memWfFrom lo ((b, v) :: m) = true ↔
      lo ≤ b ∧ b < Config.dmemSize ∧ v ≠ Config.unlistedByte ∧ memWfFrom (b + 1) m = true := by
  simp [memWfFrom, and_assoc]

theorem memWfFrom_mono {lo lo' : Nat} {m : Memory} (h : lo' ≤ lo) (hm : memWfFrom lo m = true) : memWfFrom lo' m = true := by
  cases m with
  | nil => rfl
  | cons c m =>
    obtain ⟨b, v⟩ := c
    rw [memWfFrom_cons] at hm ⊢
    exact ⟨by omega, hm.2⟩

theorem addr_lt_dmemSize (a : Addr) : a.toNat < Config.dmemSize := a.isLt

theorem consCell_wf {lo : Nat} {a : Addr} {v : Byte} {m : Memory} (hlo : lo ≤ a.toNat)
    (hm : memWfFrom (a.toNat + 1) m = true) : memWfFrom lo (consCell a v m) = true := by
  unfold consCell
  split
  · exact memWfFrom_mono (by omega) hm
  · rw [memWfFrom_cons]
    exact ⟨hlo, addr_lt_dmemSize a, ‹_›, hm⟩

theorem memWrite_wfFrom {lo : Nat} {m : Memory} (a : Addr) (v : Byte) (hlo : lo ≤ a.toNat) (hm : memWfFrom lo m = true) :
    memWfFrom lo (memWrite m a v) = true := by
  induction m generalizing lo with
  | nil => exact consCell_wf hlo rfl
  | cons c m ih =>
    obtain ⟨b, w⟩ := c
    rw [memWfFrom_cons] at hm
    obtain ⟨h1, h2, h3, h4⟩ := hm
    unfold memWrite
    split
    · exact consCell_wf hlo (memWfFrom_cons.2 ⟨by omega, h2, h3, h4⟩)
    · split
      · subst b
        exact consCell_wf hlo h4
      · exact memWfFrom_cons.2 ⟨h1, h2, h3, ih (by omega) h4⟩

/-- A write keeps the canonical form. -/
theorem memWrite_wf {m : Memory} (a : Addr) (v : Byte) (hm : Memory.wf m = true) : Memory.wf (memWrite m a v) = true :=
  memWrite_wfFrom a v (Nat.zero_le _) hm

/-- Below its first cell a memory reads as unlisted. -/
theorem memRead_below {lo : Nat} {m : Memory} {a : Addr} (hm : memWfFrom lo m = true) (ha : a.toNat < lo) :
    memRead m a = Config.unlistedByte := by
  induction m generalizing lo with
  | nil => rfl
  | cons c m ih =>
    obtain ⟨b, w⟩ := c
    rw [memWfFrom_cons] at hm
    rw [memRead_cons, if_neg (by omega)]
    exact ih hm.2.2.2 (by omega)

theorem memRead_consCell_same {a : Addr} {v : Byte} {m : Memory} (hm : memWfFrom (a.toNat + 1) m = true) :
    memRead (consCell a v m) a = v := by
  unfold consCell
  split
  · rw [memRead_below hm (Nat.lt_succ_self _)]; exact Eq.symm ‹_›
  · simp [memRead_cons]

theorem memRead_consCell_other {a b : Addr} {v : Byte} {m : Memory} (h : a ≠ b) :
    memRead (consCell a v m) b = memRead m b := by
  unfold consCell
  split
  · rfl
  · rw [memRead_cons, if_neg fun h' => h (BitVec.eq_of_toNat_eq h')]

/-- Reading the address just written gives the value written. -/
theorem memRead_memWrite_same {m : Memory} (a : Addr) (v : Byte) (hm : Memory.wf m = true) : memRead (memWrite m a v) a = v := by
  unfold Memory.wf at hm
  generalize 0 = lo at hm
  induction m generalizing lo with
  | nil => exact memRead_consCell_same rfl
  | cons c m ih =>
    obtain ⟨b, w⟩ := c
    rw [memWfFrom_cons] at hm
    unfold memWrite
    split
    · exact memRead_consCell_same (memWfFrom_cons.2 ⟨by omega, hm.2⟩)
    · split
      · subst b
        exact memRead_consCell_same hm.2.2.2
      · rw [memRead_cons, if_neg (by omega)]
        exact ih _ hm.2.2.2

/-- Reading any other address gives what it gave before. -/
theorem memRead_memWrite_other (m : Memory) {a b : Addr} (v : Byte) (h : a ≠ b) : memRead (memWrite m a v) b = memRead m b := by
  induction m with
  | nil => exact memRead_consCell_other h
  | cons c m ih =>
    obtain ⟨c, w⟩ := c
    have hne : ¬ a.toNat = b.toNat := fun h' => h (BitVec.eq_of_toNat_eq h')
    unfold memWrite
    split
    · exact memRead_consCell_other h
    · split
      · rw [memRead_consCell_other h, memRead_cons, if_neg (by omega)]
      · rw [memRead_cons, memRead_cons, ih]

theorem memRead_memWrite {m : Memory} (a b : Addr) (v : Byte) (hm : Memory.wf m = true) :
    memRead (memWrite m a v) b = if a = b then v else memRead m b := by
  split
  · subst b; exact memRead_memWrite_same a v hm
  · exact memRead_memWrite_other m v ‹_›

theorem memory_ext_from {lo : Nat} {m n : Memory} (hm : memWfFrom lo m = true) (hn : memWfFrom lo n = true)
    (h : ∀ a, memRead m a = memRead n a) : m = n := by
  induction m generalizing lo n with
  | nil =>
    cases n with
    | nil => rfl
    | cons c n =>
      obtain ⟨b, v⟩ := c
      rw [memWfFrom_cons] at hn
      have hb := h (BitVec.ofNat 64 b)
      rw [memRead_cons, if_pos (by simpa [Config.dmemSize] using (Nat.mod_eq_of_lt hn.2.1).symm)] at hb
      exact absurd hb.symm hn.2.2.1
  | cons c m ih =>
    obtain ⟨b, v⟩ := c
    have hm' := hm
    rw [memWfFrom_cons] at hm
    have hbn : (BitVec.ofNat 64 b).toNat = b := by simpa [Config.dmemSize] using Nat.mod_eq_of_lt hm.2.1
    have hb := h (BitVec.ofNat 64 b)
    rw [memRead_cons, if_pos hbn.symm] at hb
    cases n with
    | nil => exact absurd hb hm.2.2.1
    | cons c n =>
      obtain ⟨c, w⟩ := c
      have hn' := hn
      rw [memWfFrom_cons] at hn
      have hcn : (BitVec.ofNat 64 c).toNat = c := by simpa [Config.dmemSize] using Nat.mod_eq_of_lt hn.2.1
      have hbc : b = c := by
        rcases Nat.lt_trichotomy b c with hlt | heq | hgt
        · rw [memRead_below (memWfFrom_cons.2 ⟨Nat.le_refl c, hn.2⟩) (by omega)] at hb
          exact absurd hb hm.2.2.1
        · exact heq
        · have hc := h (BitVec.ofNat 64 c)
          rw [memRead_below (memWfFrom_cons.2 ⟨Nat.le_refl b, hm.2⟩) (by omega), memRead_cons, if_pos hcn.symm] at hc
          exact absurd hc.symm hn.2.2.1
      subst c
      rw [memRead_cons, if_pos hbn.symm] at hb
      subst w
      refine congrArg _ (ih hm.2.2.2 hn.2.2.2 fun a => ?_)
      by_cases hab : b = a.toNat
      · rw [memRead_below hm.2.2.2 (by omega), memRead_below hn.2.2.2 (by omega)]
      · simpa [memRead_cons, hab] using h a

/-- Memories in canonical form that read alike are the same list. -/
theorem memory_ext {m n : Memory} (hm : Memory.wf m = true) (hn : Memory.wf n = true) (h : ∀ a, memRead m a = memRead n a) :
    m = n :=
  memory_ext_from hm hn h

end Sys2Proof.Machine
end

