-- ==== Sys2Proof/Laws/StreamCipher.lean ====
section
/-! SUPPORT. The Stream Cipher: the split of a length, what XorFold does to each byte, and the closed form of the block loop. -/

namespace Sys2Proof.Machine

theorem sliceLen_le (len j : Nat) : sliceLen len j ≤ 64 := by
  unfold sliceLen; split <;> omega

theorem sliceLen_pos {len j : Nat} (h : j < nBlocks len) : 0 < sliceLen len j := by
  unfold nBlocks at h; unfold sliceLen; split at h <;> split <;> omega

/-- The slices end inside the buffer. -/
theorem slice_bound {len j : Nat} (h : j < nBlocks len) : 64 * j + sliceLen len j ≤ len := by
  unfold nBlocks at h; unfold sliceLen; split at h <;> split <;> omega

/-- Byte t of the buffer lies in slice t / 64 (R120). -/
theorem slice_of_byte {len t : Nat} (h : t < len) : t / 64 < nBlocks len ∧ t % 64 < sliceLen len (t / 64) := by
  unfold nBlocks sliceLen; constructor <;> split <;> omega

/-- Byte t lies in slice j exactly when j is t / 64. -/
theorem mem_slice_iff {len t j : Nat} (ht : t < len) (hj : j < nBlocks len) :
    (64 * j ≤ t ∧ t < 64 * j + sliceLen len j) ↔ j = t / 64 := by
  constructor
  · intro h
    have := sliceLen_le len j
    omega
  · rintro rfl
    have := (slice_of_byte ht).2
    omega

/-- XorFold keeps the canonical form. -/
theorem xorFold_wf (o : OperandRegs) (j n : Nat) (ks : Vector Byte 64) {m : Memory} (hm : Memory.wf m = true) :
    Memory.wf (xorFold o j n ks m) = true :=
  forUp_induct (fun _ m => Memory.wf m = true) hm fun _ _ _ h => memWrite_wf _ _ h

/-- XorFold leaves every address outside the slice (R121). -/
theorem xorFold_outside (o : OperandRegs) (j n : Nat) (ks : Vector Byte 64) (m : Memory) (a : Addr)
    (ha : ∀ i, i < n → dmemAddr o (64 * j + i) ≠ a) : memRead (xorFold o j n ks m) a = memRead m a :=
  forUp_induct (fun _ m' => memRead m' a = memRead m a) rfl fun i _ hi h => by
    rw [memRead_memWrite_other _ _ (ha i hi), h]

/-- XorFold replaces byte i of the slice by its exclusive OR with keystream byte i (R121). -/
theorem xorFold_inside (o : OperandRegs) (j n : Nat) (ks : Vector Byte 64) {m : Memory} (hm : Memory.wf m = true)
    (hn : 64 * j + n ≤ 2 ^ 64) (h64 : n ≤ 64) (i : Nat) (hi : i < n) :
    memRead (xorFold o j n ks m) (dmemAddr o (64 * j + i)) = memRead m (dmemAddr o (64 * j + i)) ^^^ ks[i] := by
  suffices h : Memory.wf (xorFold o j n ks m) = true ∧ ∀ i (h : i < 64), 64 * j + i < 2 ^ 64 →
      memRead (xorFold o j n ks m) (dmemAddr o (64 * j + i)) =
        if i < n then memRead m (dmemAddr o (64 * j + i)) ^^^ ks[i] else memRead m (dmemAddr o (64 * j + i)) by
    rw [h.2 i (by omega) (by omega), if_pos hi]
  refine forUp_induct (fun k m' => Memory.wf m' = true ∧ ∀ i (h : i < 64), 64 * j + i < 2 ^ 64 →
      memRead m' (dmemAddr o (64 * j + i)) =
        if i < k then memRead m (dmemAddr o (64 * j + i)) ^^^ ks[i] else memRead m (dmemAddr o (64 * j + i)))
    ⟨hm, fun i h _ => by simp⟩ fun k y hk ⟨hy, hr⟩ => ⟨memWrite_wf _ _ hy, fun i h hb => ?_⟩
  rw [memRead_memWrite _ _ _ hy]
  by_cases hik : k = i
  · subst k
    rw [if_pos rfl, if_pos (Nat.lt_succ_self i), hr i h hb, if_neg (Nat.lt_irrefl i), Vector.getElem?_eq_getElem h]
    rfl
  · rw [if_neg fun h' => hik (by have := dmemAddr_inj (by omega) hb h'; omega), hr i h hb]
    by_cases hlt : i < k
    · rw [if_pos hlt, if_pos (by omega)]
    · rw [if_neg hlt, if_neg (by omega)]

/-! `encryptSlice` and `encryptWork` touch the engine and DMEM only. -/

@[simp] theorem encryptSlice_opd (o : OperandRegs) (j : Nat) (s : State) : (encryptSlice o j s).opd = s.opd := by
  simp only [encryptSlice, setDmem_opd, setEng_opd]

@[simp] theorem encryptSlice_status (o : OperandRegs) (j : Nat) (s : State) : (encryptSlice o j s).status = s.status := by
  simp only [encryptSlice, setDmem_status, setEng_status]

@[simp] theorem encryptSlice_tagOut (o : OperandRegs) (j : Nat) (s : State) : (encryptSlice o j s).tagOut = s.tagOut := by
  simp only [encryptSlice, setDmem_tagOut, setEng_tagOut]

@[simp] theorem encryptSlice_populated (o : OperandRegs) (j : Nat) (s : State) : (encryptSlice o j s).populated = s.populated := by
  simp only [encryptSlice, setDmem_populated, setEng_populated]

@[simp] theorem encryptSlice_pending (o : OperandRegs) (j : Nat) (s : State) : (encryptSlice o j s).pending = s.pending := by
  simp only [encryptSlice, setDmem_pending, setEng_pending]

@[simp] theorem encryptSlice_responses (o : OperandRegs) (j : Nat) (s : State) : (encryptSlice o j s).responses = s.responses := by
  simp only [encryptSlice, setDmem_responses, setEng_responses]

@[simp] theorem encryptWork_opd (o : OperandRegs) (s : State) : (encryptWork o s).opd = s.opd :=
  forUp_fixed State.opd _ _ (encryptSlice_opd o)

@[simp] theorem encryptWork_status (o : OperandRegs) (s : State) : (encryptWork o s).status = s.status :=
  forUp_fixed State.status _ _ (encryptSlice_status o)

@[simp] theorem encryptWork_tagOut (o : OperandRegs) (s : State) : (encryptWork o s).tagOut = s.tagOut :=
  forUp_fixed State.tagOut _ _ (encryptSlice_tagOut o)

@[simp] theorem encryptWork_populated (o : OperandRegs) (s : State) : (encryptWork o s).populated = s.populated :=
  forUp_fixed State.populated _ _ (encryptSlice_populated o)

@[simp] theorem encryptWork_pending (o : OperandRegs) (s : State) : (encryptWork o s).pending = s.pending :=
  forUp_fixed State.pending _ _ (encryptSlice_pending o)

@[simp] theorem encryptWork_responses (o : OperandRegs) (s : State) : (encryptWork o s).responses = s.responses :=
  forUp_fixed State.responses _ _ (encryptSlice_responses o)

/-- CTR after slice j (R124). -/
@[simp] theorem encryptSlice_ctr (o : OperandRegs) (j : Nat) (s : State) :
    (encryptSlice o j s).eng.ctr = BitVec.ofNat 32 (1 + j) := by
  simp only [encryptSlice, setDmem_eng, setEng_eng, runBlock_ctr, setCtr_ctr]

/-- KS after slice j: the block of the counter in CTR (R122). -/
@[simp] theorem encryptSlice_ks (o : OperandRegs) (j : Nat) (s : State) :
    (encryptSlice o j s).eng.ks = block (keyBytes o) (nonceBytes o) (BitVec.ofNat 32 (1 + j)) := by
  simp only [encryptSlice, setDmem_eng, setEng_eng, runBlock_ks, setCtr_ctr]

/-- DMEM after one slice (R122). -/
theorem encryptSlice_dmem (o : OperandRegs) (j : Nat) (s : State) :
    (encryptSlice o j s).dmem =
      xorFold o j (sliceLen (bufLen o) j) (block (keyBytes o) (nonceBytes o) (BitVec.ofNat 32 (1 + j))) s.dmem := rfl

/-- DMEM after the block loop, as a loop over DMEM alone. -/
def cipherMemory (o : OperandRegs) (m : Memory) : Memory :=
  forUp (nBlocks (bufLen o))
    (fun j => xorFold o j (sliceLen (bufLen o) j) (block (keyBytes o) (nonceBytes o) (BitVec.ofNat 32 (1 + j)))) m

theorem encryptWork_dmem (o : OperandRegs) (s : State) : (encryptWork o s).dmem = cipherMemory o s.dmem :=
  forUp_view State.dmem _ _ fun j y _ => encryptSlice_dmem o j y

theorem cipherMemory_wf (o : OperandRegs) {m : Memory} (hm : Memory.wf m = true) : Memory.wf (cipherMemory o m) = true :=
  forUp_induct (fun _ m => Memory.wf m = true) hm fun _ _ _ h => xorFold_wf _ _ _ _ h

/-- The block loop leaves every address outside the buffer (R59). -/
theorem cipherMemory_outside (o : OperandRegs) (m : Memory) (a : Addr) (ha : ∀ t, t < bufLen o → dmemAddr o t ≠ a) :
    memRead (cipherMemory o m) a = memRead m a :=
  forUp_induct (fun _ m' => memRead m' a = memRead m a) rfl fun j _ hj h => by
    rw [xorFold_outside _ _ _ _ _ _ fun i hi => ha _ (by have := slice_bound hj; omega), h]

/-- The keystream byte for buffer byte t: `Block(key, nonce, 1 + (t div 64))[t mod 64]` (R122). -/
def keystreamByte (o : OperandRegs) (t : Nat) : Byte :=
  (block (keyBytes o) (nonceBytes o) (BitVec.ofNat 32 (1 + t / 64)))[t % 64]'(Nat.mod_lt _ (by decide))

/-- The closed form of the block loop (R122). -/
theorem cipherMemory_inside (o : OperandRegs) {m : Memory} (hm : Memory.wf m = true) (t : Nat) (ht : t < bufLen o) :
    memRead (cipherMemory o m) (dmemAddr o t) = memRead m (dmemAddr o t) ^^^ keystreamByte o t := by
  have hlen := bufLen_lt o
  suffices h : Memory.wf (cipherMemory o m) = true ∧ ∀ t, t < bufLen o →
      memRead (cipherMemory o m) (dmemAddr o t) =
        if t / 64 < nBlocks (bufLen o) then memRead m (dmemAddr o t) ^^^ keystreamByte o t else memRead m (dmemAddr o t) by
    rw [h.2 t ht, if_pos (slice_of_byte ht).1]
  refine forUp_induct (fun k m' => Memory.wf m' = true ∧ ∀ t, t < bufLen o → memRead m' (dmemAddr o t) =
      if t / 64 < k then memRead m (dmemAddr o t) ^^^ keystreamByte o t else memRead m (dmemAddr o t))
    ⟨hm, fun t _ => by simp⟩ fun j y hj ⟨hy, hr⟩ => ⟨xorFold_wf _ _ _ _ hy, fun t ht => ?_⟩
  have hb := slice_bound hj
  by_cases hjt : j = t / 64
  · have hin := (slice_of_byte ht).2
    have hsplit : 64 * j + t % 64 = t := by omega
    have h := xorFold_inside o j (sliceLen (bufLen o) j)
      (block (keyBytes o) (nonceBytes o) (BitVec.ofNat 32 (1 + j))) hy (by omega) (sliceLen_le _ _) (t % 64) (hjt ▸ hin)
    rw [hsplit] at h
    rw [h, hr t ht, if_neg (by omega), if_pos (by omega)]
    subst hjt
    rfl
  · rw [xorFold_outside _ _ _ _ _ _ fun i hi heq => hjt ?_, hr t ht]
    · congr 1
      simp only [eq_iff_iff]
      omega
    · have := dmemAddr_inj (by omega) (by omega) heq
      exact (mem_slice_iff ht hj).1 (by omega)

end Sys2Proof.Machine
end

