-- ==== Sys2Proof/Laws/Exec.lean ====
section
/-! SUPPORT. What each instruction and each step can do, said once: the three ends of a guarded command, the arms of `exec`, the
four inputs of `step`. -/

namespace Sys2Proof.Machine

/-! ### STATUS -/

@[simp] theorem outcomeStatus_encrypted : outcomeStatus .encrypted = 0x00000001#32 := by decide

@[simp] theorem outcomeStatus_tagged (t : Vector Byte 16) : outcomeStatus (.tagged t) = 0x00000001#32 :=
  outcomeStatus_encrypted

@[simp] theorem outcomeStatus_verified (ok : Bool) :
    outcomeStatus (.verified ok) = if ok then 0x00000005#32 else 0x00000001#32 := by cases ok <;> decide

@[simp] theorem outcomeStatus_cleared : outcomeStatus .cleared = 0x00000000#32 := by decide

/-- STATUS of the four errors (R180). -/
theorem outcomeStatus_error (e : StructuralError) :
    outcomeStatus (.error e) =
      match e with
      | .invalidKeyLength => 0x00000102#32
      | .invalidNonceLength => 0x00000202#32
      | .counterOverflow => 0x00000302#32
      | .illegalCommand => 0x00000402#32 := by cases e <;> decide

theorem outcomeStatus_legal (oc : CommandOutcome) : statusLegal (outcomeStatus oc) = true := by
  cases oc with
  | encrypted => decide
  | tagged => rw [outcomeStatus_tagged]; decide
  | verified ok => cases ok <;> decide
  | error e => cases e <;> decide
  | cleared => decide

/-- TAGOUT is non-zero only after a completed TAG, and STATUS is then 1 (R170). -/
theorem outcomeTagOut_ne_zero {oc : CommandOutcome} (h : outcomeTagOut oc ≠ Vector.replicate 4 0) : outcomeStatus oc = 1 := by
  cases oc with
  | tagged t => exact outcomeStatus_tagged t
  | _ => exact absurd rfl h

/-! ### Guarded commands -/

section
variable {check : Option StructuralError} {work : State → State} {outcome : State → CommandOutcome} {s t : State}

theorem guardedCommand_raise {e : StructuralError} : guardedCommand (some e) work outcome s = .next (raiseError e s) := rfl

theorem guardedCommand_run (h : bufferPopulated s.populated s.opd = true) :
    guardedCommand none work outcome s = .next (finish (outcome (work s)) (work s)) := by
  rw [guardedCommand]; exact if_pos h

theorem guardedCommand_refuse (h : bufferPopulated s.populated s.opd = false) :
    guardedCommand none work outcome s = .refused .bufferNotPopulated := by
  rw [guardedCommand]; exact if_neg (by simp [h])

/-- A guarded command answers next in two ways: a check raised, or the checked command ran on a populated buffer. -/
theorem guardedCommand_next (h : guardedCommand check work outcome s = .next t) :
    (∃ e, check = some e ∧ t = raiseError e s) ∨
      (check = none ∧ bufferPopulated s.populated s.opd = true ∧ t = finish (outcome (work s)) (work s)) := by
  cases check with
  | some e => exact .inl ⟨e, rfl, (Host.Outcome.next.inj h).symm⟩
  | none =>
    cases hp : bufferPopulated s.populated s.opd with
    | true => rw [guardedCommand_run hp] at h; exact .inr ⟨rfl, rfl, (Host.Outcome.next.inj h).symm⟩
    | false => rw [guardedCommand_refuse hp] at h; cases h

/-- A guarded command refuses in one way: it passed its checks and its buffer is not populated (U6). -/
theorem guardedCommand_refused {r : Refusal} (h : guardedCommand check work outcome s = .refused r) :
    check = none ∧ bufferPopulated s.populated s.opd = false ∧ r = .bufferNotPopulated := by
  cases check with
  | some e => cases h
  | none =>
    cases hp : bufferPopulated s.populated s.opd with
    | true => rw [guardedCommand_run hp] at h; cases h
    | false => rw [guardedCommand_refuse hp] at h; cases h; exact ⟨rfl, rfl, rfl⟩

end

/-! ### The checks -/

theorem lengthCheck_none {o : OperandRegs} (hk : o.keyLen = 32) (hn : o.nonceLen = 12) : lengthCheck o = none := by
  simp [lengthCheck, hk, hn]

theorem cipherCheck_none {o : OperandRegs} (hk : o.keyLen = 32) (hn : o.nonceLen = 12) (hl : bufLen o ≤ maxCipherLen) :
    cipherCheck o = none := by
  simp [cipherCheck, lengthCheck_none hk hn, Nat.not_lt.2 hl]

/-! ### What a completed command leaves -/

/-- `finish` after work that changed the engine and DMEM only. -/
theorem finish_of_frame (oc : CommandOutcome) {s w : State} {m : Memory} (hd : w.dmem = m) (hp : w.populated = s.populated)
    (hq : w.pending = s.pending) (hr : w.responses = s.responses) :
    finish oc w =
      { s with eng := Engine.zero, opd := OperandRegs.zero, status := outcomeStatus oc, tagOut := outcomeTagOut oc,
               dmem := m } := by
  cases w; cases s; cases hd; cases hp; cases hq; cases hr; rfl

/-- The state after a completed ENCRYPT (R122, R168, R169). -/
theorem finish_encryptWork (s : State) :
    finish .encrypted (encryptWork s.opd s) =
      { s with eng := Engine.zero, opd := OperandRegs.zero, status := outcomeStatus .encrypted,
               tagOut := outcomeTagOut .encrypted, dmem := cipherMemory s.opd s.dmem } :=
  finish_of_frame .encrypted (encryptWork_dmem _ s) (encryptWork_populated _ s) (encryptWork_pending _ s)
    (encryptWork_responses _ s)

/-- The state after a completed TAG or VERIFY: DMEM unchanged, the results those of the outcome (R145, R147, R168, R169). -/
theorem finish_tagWork (oc : CommandOutcome) (s : State) :
    finish oc (tagWork s.opd s) =
      { s with eng := Engine.zero, opd := OperandRegs.zero, status := outcomeStatus oc, tagOut := outcomeTagOut oc } :=
  finish_of_frame oc (tagWork_dmem _ s) (tagWork_populated _ s) (tagWork_pending _ s) (tagWork_responses _ s)

/-! ### Commands and instructions -/

@[simp] theorem decodeCmd_one : decodeCmd 1 = .encrypt := by decide

@[simp] theorem decodeCmd_two : decodeCmd 2 = .tag := by decide

@[simp] theorem decodeCmd_three : decodeCmd 3 = .verify := by decide

@[simp] theorem decodeCmd_four : decodeCmd 4 = .clear := by decide

/-- `Command(c)` is the meaning of the instruction that c decodes to, and IllegalCommand when there is none (R168). -/
theorem command_eq (c : Word) (s : State) :
    command c s =
      match (decodeCmd c).instr? with
      | some i => exec i s
      | none => .next (raiseError .illegalCommand s) := by
  unfold command
  cases decodeCmd c <;> rfl

/-- The whole of ENCRYPT: a check raises, or DMEM becomes `cipherMemory`, or the buffer is not populated (R122). -/
theorem exec_encrypt (s : State) :
    exec .encrypt s =
      match cipherCheck s.opd with
      | some e => .next (raiseError e s)
      | none =>
        if bufferPopulated s.populated s.opd then
          .next { s with status := 0x00000001, tagOut := Vector.replicate 4 0, opd := OperandRegs.zero, eng := Engine.zero,
                         dmem := cipherMemory s.opd s.dmem }
        else .refused .bufferNotPopulated := by
  show guardedCommand (cipherCheck s.opd) (encryptWork s.opd) (fun _ => .encrypted) s = _
  cases hc : cipherCheck s.opd with
  | some e => rfl
  | none =>
    unfold guardedCommand
    simp only [finish_encryptWork, outcomeStatus_encrypted]
    rfl

/-- The tag that TAG and VERIFY compute from a state (R144). -/
def commandTag (s : State) : Vector Byte 16 :=
  macTag (slice (block (keyBytes s.opd) (nonceBytes s.opd) 0) 0 32 (by decide)) (messageByte s.opd s.dmem) (bufLen s.opd)

/-- The whole of TAG (R145). -/
theorem exec_tag (s : State) :
    exec .tag s =
      match lengthCheck s.opd with
      | some e => .next (raiseError e s)
      | none =>
        if bufferPopulated s.populated s.opd then
          .next { s with status := 0x00000001, tagOut := packBytes (n := 4) (commandTag s), opd := OperandRegs.zero,
                         eng := Engine.zero }
        else .refused .bufferNotPopulated := by
  show guardedCommand (lengthCheck s.opd) (tagWork s.opd) (fun t => .tagged t.eng.tagc) s = _
  cases hc : lengthCheck s.opd with
  | some e => rfl
  | none =>
    unfold guardedCommand
    simp only [finish_tagWork, tagWork_tagc, outcomeStatus_tagged]
    rfl

/-- The whole of VERIFY (R147). -/
theorem exec_verify (s : State) :
    exec .verify s =
      match lengthCheck s.opd with
      | some e => .next (raiseError e s)
      | none =>
        if bufferPopulated s.populated s.opd then
          .next { s with status := if ctEq (commandTag s) (tagInBytes s.opd) then 0x00000005 else 0x00000001,
                         tagOut := Vector.replicate 4 0, opd := OperandRegs.zero, eng := Engine.zero }
        else .refused .bufferNotPopulated := by
  show guardedCommand (lengthCheck s.opd) (tagWork s.opd)
    (fun t => .verified (ctEq t.eng.tagc (tagInBytes s.opd))) s = _
  cases hc : lengthCheck s.opd with
  | some e => rfl
  | none =>
    unfold guardedCommand
    simp only [finish_tagWork, tagWork_tagc, outcomeStatus_verified]
    rfl

/-- The buffer is populated exactly when each of its addresses is (U6). -/
theorem bufferPopulated_iff (regions : List Region) (o : OperandRegs) :
    bufferPopulated regions o = true ↔ ∀ t, t < bufLen o → dmemValid regions (dmemAddr o t) = true := by
  simp [bufferPopulated]

/-- A write to CMD is a command (R27). -/
theorem exec_wr_cmd (c : Word) (s : State) : exec (.wr 0 c) s = command c s := by
  show execWr 0 c s = _
  exact if_pos (by decide)

/-- A write anywhere else touches the operand registers at most (R165). -/
theorem exec_wr_other {o : Offset} (h : regAt o ≠ .cmd) (v : Word) (s : State) :
    exec (.wr o v) s = .next (setOpd (writeOperand (regAt o) v s.opd) s) := by
  show execWr o v s = _
  exact if_neg h

/-- The step on a bus transaction runs the decoded instruction (R171). -/
theorem step_bus {s : State} {t : Transaction} {rest : List Input} (h : s.pending = .bus t :: rest) :
    step s = exec (decodeBus t) { s with pending := rest } := by
  unfold step; rw [h]

theorem step_reset {s : State} {rest : List Input} (h : s.pending = .reset :: rest) :
    step s = .next (hardwareReset { s with pending := rest }) := by
  unfold step; rw [h]

theorem step_store {s : State} {a : Addr} {v : Byte} {rest : List Input} (h : s.pending = .store a v :: rest) :
    step s = hostStore a v { s with pending := rest } := by
  unfold step; rw [h]

theorem step_idle {s : State} (h : s.pending = []) : step s = .next s := by
  unfold step; rw [h]

/-- The offset 0x00 is the only one that reaches CMD (R26). -/
theorem regAt_eq_cmd_iff : ∀ o : Offset, regAt o = .cmd ↔ o = 0 := by
  decide +kernel

end Sys2Proof.Machine
end

