-- ==== Sys2Proof/Laws/PerInstr.lean ====
section
/-! SUPPORT. Statements made of every instruction, one lemma per constructor. -/

namespace Sys2Proof.Laws.PortForm

/-- The bus transaction by which an instruction is presented is a write to CMD carrying a legal command word, or the instruction's
own BUS form (R70, R73). -/
def Statement (i : Instr) : Prop :=
  (∃ c, encode i = .cmd c ∧ decodeBus (encode i).transaction = .wr 0 c ∧ (decodeCmd c).instr? = some i) ∨
    (∃ t, encode i = .bus t ∧ (encode i).transaction = t)

theorem wr (offset : Offset) (value : Word) : Statement (.wr offset value) := .inr ⟨_, rfl, rfl⟩

theorem rd (offset : Offset) : Statement (.rd offset) := .inr ⟨_, rfl, rfl⟩

theorem encrypt : Statement .encrypt := .inl ⟨1, rfl, by decide, by decide⟩

theorem tag : Statement .tag := .inl ⟨2, rfl, by decide, by decide⟩

theorem verify : Statement .verify := .inl ⟨3, rfl, by decide, by decide⟩

theorem clear : Statement .clear := .inl ⟨4, rfl, by decide, by decide⟩

end Sys2Proof.Laws.PortForm
end

