-- ==== Sys2Proof/Tests/Slice0.lean ====
section
/-! SUPPORT. Tests: ill-formed encodings, words written out from the formats, one step per instruction with the values of
spec/95_test_vectors.md, and for every statement with hypotheses a witness that meets them. -/

namespace Sys2Proof.Tests

open Sys2Proof Sys2Proof.Machine

set_option Elab.async false

/-! ### Helpers -/

/-- The state an outcome goes on in. -/
def nextState : Host.Outcome State Fault Refusal → Option State
  | .next t => some t
  | .fault _ => none
  | .refused _ => none

theorem of_isSome {o : Host.Outcome State Fault Refusal} (h : (nextState o).isSome = true) : ∃ t, o = .next t := by
  cases o with
  | next t => exact ⟨t, rfl⟩
  | fault f => cases h
  | refused r => cases h

/-- The refusal of an outcome. -/
def refusal : Host.Outcome State Fault Refusal → Option Refusal
  | .next _ => none
  | .fault _ => none
  | .refused r => some r

/-- K1 and N1 of 95_test_vectors.md, as the registers hold them (V16). -/
def key1 : Vector Word 8 :=
  #v[0x03020100, 0x07060504, 0x0b0a0908, 0x0f0e0d0c, 0x13121110, 0x17161514, 0x1b1a1918, 0x1f1e1d1c]

def nonce1 : Vector Word 3 := #v[0x09000000, 0x4a000000, 0x00000000]

/-- K2 and N2 (V3, V16). -/
def key2 : Vector Word 8 :=
  #v[0x83828180, 0x87868584, 0x8b8a8988, 0x8f8e8d8c, 0x93929190, 0x97969594, 0x9b9a9998, 0x9f9e9d9c]

def nonce2 : Vector Word 3 := #v[0x00000000, 0x03020100, 0x07060504]

/-- M34, "Cryptographic Forum Research Group". -/
def m34 : List Byte :=
  [0x43, 0x72, 0x79, 0x70, 0x74, 0x6f, 0x67, 0x72, 0x61, 0x70, 0x68, 0x69, 0x63, 0x20, 0x46, 0x6f, 0x72] ++
  [0x75, 0x6d, 0x20, 0x52, 0x65, 0x73, 0x65, 0x61, 0x72, 0x63, 0x68, 0x20, 0x47, 0x72, 0x6f, 0x75, 0x70]

/-- DMEM with the given bytes from an address on. -/
def place : List Byte → Addr → Memory → Memory
  | [], _, m => m
  | b :: bs, a, m => place bs (a + 1) (memWrite m a b)

/-- The reset state with operands loaded (K1, N1 and accepted lengths). -/
def loaded (addr len : Nat) (m : Memory) : State :=
  { State.reset with
    dmem := m,
    opd := { OperandRegs.zero with
      keyLen := 32, nonceLen := 12, key := key1, nonce := nonce1,
      bufAddrLo := BitVec.ofNat 32 addr, bufAddrHi := BitVec.ofNat 32 (addr / 2 ^ 32),
      bufLenLo := BitVec.ofNat 32 len, bufLenHi := BitVec.ofNat 32 (len / 2 ^ 32) } }

/-- The operands of V6 cases h and the example of R147: K2, N2, M34 at 0x3000, and an expected tag. -/
def loaded34 (tagIn : Vector Word 4) : State :=
  let s := loaded 0x3000 34 (place m34 0x3000 [])
  { s with opd := { s.opd with key := key2, nonce := nonce2, tagIn := tagIn } }

/-- The tag of V6 case h in registers. -/
def tag34 : Vector Word 4 := #v[0x2acf6592, 0xe94cf4a8, 0x2b92dbbd, 0x7c0e653d]

/-- The reset state with one input waiting. -/
def waiting (x : Input) : State := { State.reset with pending := [x] }

theorem wholeSpace_populated (a : Addr) : dmemValid Config.wholeSpace a = true := by
  have h : a.toNat < Config.dmemSize := a.isLt
  simp [dmemValid, Config.wholeSpace, h]

/-! ### Well-formedness: each check refuses an ill-formed encoding -/

/-- R71: a read with wdata other than 0 is not canonical, though it decodes. -/
theorem test_wellFormed_refuses_read_with_wdata : (Encoded.bus 0x00400000001#41).wellFormed = false := by decide

/-- R72, R74: a reserved bit set. -/
theorem test_wellFormed_refuses_reserved_bits : (Encoded.cmd 0x00000101#32).wellFormed = false := by decide

/-- R73, R74: operation codes 0 and 5. -/
theorem test_wellFormed_refuses_opcodes :
    (Encoded.cmd 0x00000000#32).wellFormed = false ∧ (Encoded.cmd 0x00000005#32).wellFormed = false := by decide

/-! ### Decoding: words written out from the formats of R71 to R73 -/

/-- WR: T[40] = 1, offset T[39:32] = 0x50 (TAGIN0), wdata T[31:0]. -/
theorem test_decode_wr : decode (.bus 0b1_01010000_00101010110011110110010110010010#41) = some (.wr 0x50 0x2acf6592) := by decide

/-- RD: T[40] = 0, offset 0x60 (TAGOUT0); wdata is ignored (R71). -/
theorem test_decode_rd :
    decode (.bus 0b0_01100000_00000000000000000000000000000000#41) = some (.rd 0x60) ∧
    decode (.bus 0b0_01100000_11111111111111111111111111111111#41) = some (.rd 0x60) := by decide

/-- OPC = T[7:0] of the command word, RSVZ = 0 (R72, R73). -/
theorem test_decode_encrypt : decode (.cmd 0b000000000000000000000000_00000001#32) = some .encrypt := by decide

theorem test_decode_tag : decode (.cmd 0b000000000000000000000000_00000010#32) = some .tag := by decide

theorem test_decode_verify : decode (.cmd 0b000000000000000000000000_00000011#32) = some .verify := by decide

theorem test_decode_clear : decode (.cmd 0b000000000000000000000000_00000100#32) = some .clear := by decide

/-- V15: words that are all Illegal. -/
theorem test_decode_illegal :
    ∀ i : Fin 8, decodeCmd ((#v[0x00000000, 0x00000005, 0x000000ff, 0x00000100, 0x00000101, 0x00010001, 0x80000001, 0xffffffff] :
      Vector Word 8)[i]) = .illegal := by decide

/-- The table's numbering: a row of 32 bits is a command word, a row of 48 bits a bus transaction (log 10). -/
theorem test_table_words :
    decodeTableWord 32 0x00000003 = some .verify ∧ decodeTableWord 48 0x12003020100 = some (.wr 0x20 0x03020100) ∧
    decodeTableWord 48 0x06c00000000 = some (.rd 0x6C) ∧ decodeTableWord 32 0x00000101 = none := by decide

/-! ### One step per instruction -/

/-- V15 steps 2, 3: KEY0 takes the value and reads 0. -/
theorem test_wr_key :
    ((nextState (exec (.wr 0x20 0xdeadbeef) State.reset)).map fun t => t.opd.key[0]) = some 0xdeadbeef ∧
    ((nextState (exec (.rd 0x20) (loaded 0 0 []))).map fun t => t.responses) = some [0] := by decide +kernel

/-- V15 steps 6, 8, 9, 10: writes without effect. -/
theorem test_wr_ignored :
    ∀ o ∈ [0x4C#8, 0x22#8, 0x04#8, 0x60#8], nextState (exec (.wr o 0xffffffff) State.reset) = some State.reset := by
  decide +kernel

/-- V15 steps 5, 13 in one state: NONCE1 and KEY_LEN read back. -/
theorem test_rd :
    ((nextState (exec (.rd 0x44) (loaded 0 0 []))).map fun t => t.responses) = some [0x4a000000] ∧
    ((nextState (exec (.rd 0x08) (loaded 0 0 []))).map fun t => t.responses) = some [0x20] := by decide

/-- V10 case f: four bytes that wrap around the end of the address space. -/
theorem test_encrypt_wraps :
    ((nextState (exec .encrypt (loaded 0xfffffffffffffffe 4 []))).map fun t =>
      (t.status, memRead t.dmem 0xfffffffffffffffe, memRead t.dmem 0xffffffffffffffff, memRead t.dmem 0, memRead t.dmem 1,
        memRead t.dmem 2)) = some (0x00000001, 0x10, 0xf1, 0xe7, 0xe4, 0x00) := by decide +kernel

/-- V10 case a: the byte, and the completion clear. -/
theorem test_encrypt_byte :
    ((nextState (exec .encrypt (loaded 0x1000 1 (place [0xaa] 0x1000 [])))).map fun t =>
      (t.status, memRead t.dmem 0x1000, t.opd, t.eng)) = some (0x00000001, 0xba, OperandRegs.zero, Engine.zero) := by
  decide +kernel

/-- V6 case h. -/
theorem test_tag :
    ((nextState (exec .tag (loaded34 (Vector.replicate 4 0)))).map fun t => (t.status, t.tagOut)) =
      some (0x00000001, tag34) := by decide +kernel

/-- The example of R147: the tag of V6 case h verifies. -/
theorem test_verify_equal :
    ((nextState (exec .verify (loaded34 tag34))).map fun t => (t.status, t.tagOut)) =
      some (0x00000005, Vector.replicate 4 0) := by decide +kernel

/-- The example of R147: with TAGIN0 = 0x2acf6593 it does not. -/
theorem test_verify_differs :
    ((nextState (exec .verify (loaded34 #v[0x2acf6593, 0xe94cf4a8, 0x2b92dbbd, 0x7c0e653d]))).map fun t => t.status) =
      some 0x00000001 := by decide +kernel

/-- R167: CLEAR after a TAG erases STATUS and the tag; as a step on T = 0x10000000004 (V15). -/
theorem test_clear :
    nextState (step { State.reset with status := 1, tagOut := tag34, pending := [.bus 0x10000000004#41] }) =
      some State.reset := by decide +kernel

/-- V13 cases a, e, h, n: structural errors. -/
theorem test_errors :
    ((nextState (exec (.wr 0 1) { State.reset with opd := { (loaded 0 64 []).opd with keyLen := 31 } })).map (·.status)) =
      some 0x00000102 ∧
    ((nextState (exec (.wr 0 1) { State.reset with opd := { (loaded 0 64 []).opd with nonceLen := 16 } })).map (·.status)) =
      some 0x00000202 ∧
    ((nextState (exec (.wr 0 1) (loaded 0 274877906881 []))).map (·.status)) = some 0x00000302 ∧
    ((nextState (exec (.wr 0 0x101) (loaded 0 64 []))).map (·.status)) = some 0x00000402 := by decide +kernel

/-! ### Internal operations -/

/-- S2, the source's own quarter-round vector. -/
theorem test_quarterRound :
    let w := (((Vector.replicate 16 (0 : Word)).set 2 0x516461b1).set 7 0x2a5f714c).set 8 0x53372767
    let q := quarterRound 2 7 8 13 (w.set 13 0x3d631689)
    (q[2], q[7], q[8], q[13]) = (0xbdb886dc, 0xcfacafd2, 0xe46bea80, 0xccc07c79) := by decide +kernel

/-- V1: the first column round from S of (K1, N1, 1). -/
theorem test_columnRound :
    columnRound (initState (unpackWords key1) (unpackWords nonce1) 1) =
      #v[0xabbaa25c, 0x1efa51ea, 0x7354fbdf, 0x83d2dc69, 0x3a465196, 0x1c7e64f6, 0xb12fb628, 0xf05b6976,
         0x6b3ca454, 0x08eb14b1, 0xbf8a9ac9, 0xe444df3b, 0xdec62ed2, 0x8862cc77, 0x6e35b345, 0x52a647f1] := by decide +kernel

/-- V1: the keystream block of (K1, N1, 1). -/
theorem test_block :
    (block (unpackWords key1) (unpackWords nonce1) 1).toList =
      [0x10, 0xf1, 0xe7, 0xe4, 0xd1, 0x3b, 0x59, 0x15, 0x50, 0x0f, 0xdd, 0x1f, 0xa3, 0x20, 0x71, 0xc4] ++
      [0xc7, 0xd1, 0xf4, 0xc7, 0x33, 0xc0, 0x68, 0x03, 0x04, 0x22, 0xaa, 0x9a, 0xc3, 0xd4, 0x6c, 0x4e] ++
      [0xd2, 0x82, 0x64, 0x46, 0x07, 0x9f, 0xaa, 0x09, 0x14, 0xc2, 0xd7, 0x05, 0xd9, 0x8b, 0x02, 0xa2] ++
      [0xb5, 0x12, 0x9c, 0xd1, 0xde, 0x16, 0x4e, 0xb9, 0xcb, 0xd0, 0x83, 0xe8, 0xa2, 0x50, 0x3c, 0x4e] := by decide +kernel

/-- S5, V4: the authenticator on a raw one-time key. -/
theorem test_poly1305Mac :
    (poly1305Mac
      #v[0x85, 0xd6, 0xbe, 0x78, 0x57, 0x55, 0x6d, 0x33, 0x7f, 0x44, 0x52, 0xfe, 0x42, 0xd5, 0x06, 0xa8,
         0x01, 0x03, 0x80, 0x8a, 0xfb, 0x0d, 0xb2, 0xfd, 0x4a, 0xbf, 0xf6, 0xaf, 0x41, 0x49, 0xf5, 0x1b]
      (fun t => m34.getD t 0) 34 Engine.zero).tagc =
      #v[0xa8, 0x06, 0x1d, 0xc1, 0x30, 0x51, 0x36, 0xc6, 0xc2, 0x2b, 0x8b, 0xaf, 0x0c, 0x01, 0x27, 0xa9] := by decide +kernel

/-- V7: with r = 1 and s = 0, 32 bytes ff give a sum of P + 3, which is reduced. -/
theorem test_poly1305_reduction :
    ((poly1305Mac (leBytes 1 32) (fun _ => 0xff) 32 Engine.zero).tagc)[0] = 0x03 := by decide +kernel

/-- V14: the threshold of ENCRYPT. -/
theorem test_threshold :
    cipherCheck (loaded 0 274877906880 []).opd = none ∧
    cipherCheck (loaded 0 274877906881 []).opd = some .counterOverflow := by decide +kernel

/-! ### Witnesses: for every statement with hypotheses, a concrete state and operands that meet all of them -/

/-- The last byte of the address space, and the byte at address 0, both listed. -/
def edgeMemory : Memory := place [0xaa, 0xbb] 0xffffffffffffffff []

/-- A state with no populated address. -/
def unpopulated (len : Nat) : State := { loaded 0x1000 len [] with populated := [] }

theorem witness_DecodeAndEncodeAgree :
    (Encoded.bus 0x00400000000#41).wellFormed = true ∧ decode (.bus 0x00400000000#41) = some (.rd 0x04) ∧
    (Encoded.bus 0x1fcffffffff#41).wellFormed = true ∧ decode (.bus 0x1fcffffffff#41) = some (.wr 0xFC 0xffffffff) ∧
    (Encoded.cmd 0x00000004#32).wellFormed = true ∧ decode (.cmd 0x00000004#32) = some .clear := by decide

theorem witness_StepRunsTheDecodedInstruction :
    (waiting (.bus 0x00400000000#41)).pending = [.bus 0x00400000000#41] ∧ decode (.bus 0x00400000000#41) = some (.rd 0x04) ∧
    (waiting (.bus (Encoded.cmd 1).transaction)).pending = [.bus (Encoded.cmd 1).transaction] ∧
    decode (.cmd 1) = some .encrypt ∧ decodeTableWord 32 4 = some .clear ∧
    decodeTableWord 48 0x12003020100 = some (.wr 0x20 0x03020100) ∧ State.reset.pending = [] := by decide +kernel

/-- Boundary offsets of the last clause: misaligned 0x21 and 0xFF, STATUS, 0x4C, TAGOUT0, the last offset; and just outside it. -/
theorem witness_WriteEffect :
    (∀ o ∈ [0x21#8, 0xFF#8, 0x04#8, 0x4C#8, 0x60#8, 0xFC#8], o.toNat % 4 ≠ 0 ∨ o = 0x04 ∨ o = 0x4C ∨ 0x60 ≤ o.toNat) ∧
    ∀ o ∈ [0x00#8, 0x08#8, 0x1C#8, 0x20#8, 0x3C#8, 0x40#8, 0x48#8, 0x50#8, 0x5C#8],
      ¬ (o.toNat % 4 ≠ 0 ∨ o = 0x04 ∨ o = 0x4C ∨ 0x60 ≤ o.toNat) := by decide

/-- Boundary offsets of the last clause: 0x00, the key registers' ends, 0x4C, the first and last reserved offset, a misaligned one;
and just outside it. -/
theorem witness_ReadEffect :
    (∀ o ∈ [0x00#8, 0x20#8, 0x3C#8, 0x4C#8, 0x70#8, 0xFC#8, 0x61#8],
      o.toNat % 4 ≠ 0 ∨ o = 0x00 ∨ (0x20 ≤ o.toNat ∧ o.toNat < 0x40) ∨ o = 0x4C ∨ 0x70 ≤ o.toNat) ∧
    ∀ o ∈ [0x04#8, 0x1C#8, 0x40#8, 0x48#8, 0x50#8, 0x5C#8, 0x60#8, 0x6C#8],
      ¬ (o.toNat % 4 ≠ 0 ∨ o = 0x00 ∨ (0x20 ≤ o.toNat ∧ o.toNat < 0x40) ∨ o = 0x4C ∨ 0x70 ≤ o.toNat) := by decide

theorem witness_ReservedOffsetsAreInert :
    ∀ o ∈ [0x4C#8, 0x70#8, 0xFC#8, 0x01#8, 0xFF#8],
      o = 0x4C ∨ (0x70 ≤ o.toNat ∧ o.toNat ≤ 0xFC) ∨ o.toNat % 4 ≠ 0 := by decide

theorem witness_RegistersReadBack :
    (∀ o ∈ [0x08#8, 0x5C#8], o ≠ 0x00 ∧
      o.toNat ∈ [0x08, 0x0C, 0x10, 0x14, 0x18, 0x1C, 0x40, 0x44, 0x48, 0x50, 0x54, 0x58, 0x5C]) ∧
    ∀ o ∈ [0x20#8, 0x3C#8], o ≠ 0x00 ∧ o.toNat ∈ [0x20, 0x24, 0x28, 0x2C, 0x30, 0x34, 0x38, 0x3C] := by decide

/-- Two states that differ in the key and in ACC, and a waiting read of KEY0. -/
theorem witness_SecretsStayHidden :
    let s := { loaded 0 0 [] with pending := [.bus 0x02000000000#41] }
    let t := { s with eng := setAcc 5 s.eng, opd := { s.opd with key := key2 } }
    sameButSecrets s t ∧ s ≠ t ∧ (∀ x ∈ s.pending.head?, x.startsNoTransform = true) ∧ (nextState (step s)).isSome = true := by
  refine ⟨rfl, by decide +kernel, ?_, by decide +kernel⟩
  rintro x hx
  cases hx
  decide

theorem witness_FrameOfRegisterAccess :
    (0x08 : Offset) ≠ 0x00 ∧ (∃ t, exec (.wr 0x08 5) (loaded 0 0 edgeMemory) = .next t) ∧
    (0x08 : Offset) ≠ 0x5C ∧ (∃ t, exec (.wr 0x5C 5) (loaded 0 0 edgeMemory) = .next t) ∧
    (∀ o ∈ [0x08#8, 0x5C#8], ∃ j : Fin 8, o ≠ BitVec.ofNat 8 (0x20 + 4 * j.val)) ∧
    ∃ t, exec (.rd 0x6C) (loaded 0 0 edgeMemory) = .next t :=
  ⟨by decide, of_isSome (by decide +kernel), by decide, of_isSome (by decide +kernel), by decide, of_isSome (by decide +kernel)⟩

theorem witness_CommandWordSelectsTheCommand :
    ∀ i : Fin 4, let c := (#v[0x00000000, 0x00000005, 0x00000101, 0xffffffff] : Vector Word 4)[i]
      c ≠ 0x00000001 ∧ c ≠ 0x00000002 ∧ c ≠ 0x00000003 ∧ c ≠ 0x00000004 := by decide

/-- An illegal word, CLEAR, a failed TAG and a completed ENCRYPT of an empty buffer all answer next. -/
theorem witness_CompletionClearAfterEveryCommand :
    (∃ t, exec (.wr 0x00 0) (loaded 0 0 []) = .next t) ∧ (∃ t, exec (.wr 0x00 4) (loaded 0 0 []) = .next t) ∧
    (∃ t, exec (.wr 0x00 2) State.reset = .next t) ∧ ∃ t, exec (.wr 0x00 1) (loaded 0 0 []) = .next t :=
  ⟨of_isSome (by decide +kernel), of_isSome (by decide +kernel), of_isSome (by decide +kernel), of_isSome (by decide +kernel)⟩

/-- Each of the three ends is reached (`test_verify_equal` has the one with VOK). -/
theorem witness_CommandsEndInThreeWays :
    ((nextState (exec (.wr 0x00 1) (loaded 0 0 []))).map (·.status)) = some 1 ∧
    ((nextState (exec (.wr 0x00 7) (loaded 0 0 []))).map (·.status)) = some 0x402 ∧
    ((nextState (exec (.wr 0x00 4) (loaded 0 0 []))).map (·.status)) = some 0 := by decide +kernel

/-- Operand registers with given lengths. -/
def lengths (keyLen nonceLen : Word) : OperandRegs := { OperandRegs.zero with keyLen := keyLen, nonceLen := nonceLen }

/-- Each clause at the value next to its boundary: KEY_LEN 31 and 33, NONCE_LEN 11 and 13, one byte too many. -/
theorem witness_ErrorPriority :
    ((5 : Word) ≠ 1 ∧ (5 : Word) ≠ 2 ∧ (5 : Word) ≠ 3 ∧ (5 : Word) ≠ 4) ∧
    ((lengths 31 12).keyLen ≠ 32 ∧ (lengths 33 12).keyLen ≠ 32) ∧
    ((lengths 32 11).keyLen = 32 ∧ (lengths 32 11).nonceLen ≠ 12 ∧ (lengths 32 13).nonceLen ≠ 12) ∧
    (loaded 0 274877906881 []).opd.keyLen = 32 ∧ (loaded 0 274877906881 []).opd.nonceLen = 12 ∧
    274877906880 < bufLen (loaded 0 274877906881 []).opd :=
  ⟨by decide, by decide, by decide, by decide +kernel, by decide +kernel, by decide +kernel⟩

/-- A register write, a read, and a TAG that leaves a non-zero TAGOUT (`test_tag`). -/
theorem witness_ResultRegistersHoldTheLastOutcome :
    ((0x08 : Offset) ≠ 0x00 ∧ ∃ t, exec (.wr 0x08 5) State.reset = .next t) ∧ (∃ t, exec (.rd 0x04) State.reset = .next t) ∧
    ∃ t, exec (.wr 0x00 2) (loaded34 (Vector.replicate 4 0)) = .next t ∧ t.tagOut ≠ Vector.replicate 4 0 := by
  refine ⟨⟨by decide, of_isSome (by decide +kernel)⟩, of_isSome (by decide +kernel), ?_⟩
  have h := test_tag
  have e : exec (.wr 0x00 2) (loaded34 (Vector.replicate 4 0)) = exec .tag (loaded34 (Vector.replicate 4 0)) := by
    rw [show (.wr 0x00 2 : Instr) = .wr 0 2 from rfl, exec_wr_cmd, command_eq, decodeCmd_two]; rfl
  rw [e]
  cases ho : exec .tag (loaded34 (Vector.replicate 4 0)) with
  | next t =>
    rw [ho] at h
    have h : (t.status, t.tagOut) = (0x00000001, tag34) := Option.some.inj h
    exact ⟨t, rfl, by rw [(Prod.mk.inj h).2]; decide⟩
  | fault f => rw [ho] at h; cases h
  | refused r => rw [ho] at h; cases h

/-- All four commands answer next, ENCRYPT of one byte at the end of the address space among them; address 0 is outside its
buffer. -/
theorem witness_FrameOfCommands :
    (∃ t, exec .encrypt (loaded 0xffffffffffffffff 1 edgeMemory) = .next t) ∧
    (∀ k, k < bufLen (loaded 0xffffffffffffffff 1 edgeMemory).opd →
      dmemAddr (loaded 0xffffffffffffffff 1 edgeMemory).opd k ≠ 0) ∧
    (∃ t, exec .tag State.reset = .next t ∧ statusErr t.status = true) ∧
    (∃ t, exec .verify State.reset = .next t) ∧ ∃ t, exec .clear State.reset = .next t := by
  refine ⟨?_, by decide +kernel, ⟨_, rfl, by decide +kernel⟩, of_isSome (by decide +kernel), ⟨_, rfl⟩⟩
  rw [exec_encrypt, cipherCheck_none (by decide) (by decide) (by decide)]
  exact ⟨_, if_pos ((bufferPopulated_iff _ _).2 fun _ _ => wholeSpace_populated _)⟩

/-- V10 case a: the byte at 0x1000 changes. -/
theorem witness_OnlyEncryptWritesMemory :
    ∃ t, exec .encrypt (loaded 0x1000 1 (place [0xaa] 0x1000 [])) = .next t ∧
      memRead t.dmem 0x1000 ≠ memRead (loaded 0x1000 1 (place [0xaa] 0x1000 [])).dmem 0x1000 := by
  have h := test_encrypt_byte
  cases ho : exec .encrypt (loaded 0x1000 1 (place [0xaa] 0x1000 [])) with
  | next t =>
    rw [ho] at h
    have h : (t.status, memRead t.dmem 0x1000, t.opd, t.eng) = (0x00000001, 0xba, OperandRegs.zero, Engine.zero) :=
      Option.some.inj h
    exact ⟨t, rfl, by rw [(Prod.mk.inj (Prod.mk.inj h).2).1]; decide⟩
  | fault f => rw [ho] at h; cases h
  | refused r => rw [ho] at h; cases h

/-- Both sides of the boundary: one unpopulated byte refuses, an empty buffer does not. -/
theorem witness_RefusedExactlyOnUnpopulatedBuffers :
    refusal (exec .encrypt (unpopulated 1)) = some .bufferNotPopulated ∧
    refusal (exec (.wr 0x00 3) (unpopulated 1)) = some .bufferNotPopulated ∧
    refusal (exec .encrypt (unpopulated 0)) = none := by decide +kernel

theorem witness_ResetEffect : (waiting .reset).pending = [.reset] := rfl

/-- The largest value of four bytes. -/
theorem witness_ByteOrderConversions : 0xffffffff < 2 ^ (8 * 4) := by decide

theorem witness_MemoryReadAfterWrite :
    Memory.wf edgeMemory = true ∧ edgeMemory.length = 2 ∧ (0xffffffffffffffff : Addr) ≠ 0 ∧ Memory.wf [] = true := by
  decide +kernel

/-- Two bytes of a buffer that wraps around the end of the address space. -/
theorem witness_BufferAddresses :
    0 < bufLen (loaded 0xffffffffffffffff 2 []).opd ∧ 1 < bufLen (loaded 0xffffffffffffffff 2 []).opd ∧
    dmemAddr (loaded 0xffffffffffffffff 2 []).opd 1 = 0 := by decide +kernel

theorem witness_HostStoreReachesMemory :
    (waiting (.store 0xffffffffffffffff 0x55)).pending = [.store 0xffffffffffffffff 0x55] ∧
    Memory.wf State.reset.dmem = true ∧ dmemValid State.reset.populated 0xffffffffffffffff = true ∧
    dmemValid (unpopulated 0).populated 0 = false := by decide +kernel

theorem witness_ArxStageEffect : (2 : Fin 16) ≠ 7 ∧ (7 : Fin 16) ≠ 13 ∧ (2 : Fin 16) ≠ 13 := by decide

theorem witness_QuarterRoundEffect :
    [(2 : Fin 16), 7, 8, 13].Nodup ∧
    ∃ w : Vector Word 16, w[2] = 0x516461b1 ∧ w[7] = 0x2a5f714c ∧ w[8] = 0x53372767 ∧ w[13] = 0x3d631689 :=
  ⟨by decide, ((((Vector.replicate 16 0).set 2 0x516461b1).set 7 0x2a5f714c).set 8 0x53372767).set 13 0x3d631689, by decide⟩

theorem witness_QuarterRoundIsBijective : [(3 : Fin 16), 4, 9, 14].Nodup := by decide

theorem witness_LanesAreIndependent : [(0 : Fin 16), 5, 10, 15, 3, 4, 9, 14].Nodup := by decide

/-- The ends of the ranges: the last full slice of the largest length, the last byte of a tail. -/
theorem witness_SlicesPartitionTheBuffer : 0 < 64 / 64 ∧ 4294967294 < 274877906880 / 64 ∧ 64 < 65 := by decide

/-- A full slice and a one-byte slice, the second ending with the buffer. -/
theorem witness_XorFoldEffect :
    Memory.wf edgeMemory = true ∧ 64 ≤ 64 ∧ 64 * 0 + 64 ≤ bufLen (loaded 0xfffffffffffffffe 65 []).opd ∧
    1 ≤ 64 ∧ 64 * 1 + 1 ≤ bufLen (loaded 0xfffffffffffffffe 65 []).opd ∧
    ∀ i, i < 1 → dmemAddr (loaded 0xfffffffffffffffe 65 []).opd (64 * 1 + i) ≠ 0 := by decide +kernel

/-- Both sides of the threshold, the last slice of the largest accepted length, the shortest buffer that is not empty. -/
theorem witness_CounterNeverWraps :
    lengthCheck (loaded 0 274877906880 []).opd = none ∧ lengthCheck (loaded 0 274877906881 []).opd = none ∧
    cipherCheck (loaded 0 274877906881 []).opd = some .counterOverflow ∧ cipherCheck (loaded 0 274877906880 []).opd = none ∧
    4294967294 < nBlocks (bufLen (loaded 0 274877906880 []).opd) ∧
    cipherCheck (loaded 0 1 []).opd = none ∧ 0 < bufLen (loaded 0 1 []).opd := by decide +kernel

/-- The premises of ENCRYPT at an empty buffer, one byte, and the largest accepted length. -/
theorem encrypt_premises : ∀ len ∈ [0, 1, 274877906880],
    Memory.wf (loaded 0xffffffffffffffff len edgeMemory).dmem = true ∧
    (loaded 0xffffffffffffffff len edgeMemory).opd.keyLen = 32 ∧
    (loaded 0xffffffffffffffff len edgeMemory).opd.nonceLen = 12 ∧
    bufLen (loaded 0xffffffffffffffff len edgeMemory).opd = len ∧ len ≤ 274877906880 := by decide +kernel

theorem witness_EncryptTransformsTheBuffer :
    (∀ t, t < bufLen (loaded 0xffffffffffffffff 274877906880 edgeMemory).opd →
      dmemValid (loaded 0xffffffffffffffff 274877906880 edgeMemory).populated
        (dmemAddr (loaded 0xffffffffffffffff 274877906880 edgeMemory).opd t) = true) ∧
    ∀ len ∈ [0, 1, 274877906880], Memory.wf (loaded 0xffffffffffffffff len edgeMemory).dmem = true ∧
      (loaded 0xffffffffffffffff len edgeMemory).opd.keyLen = 32 ∧
      (loaded 0xffffffffffffffff len edgeMemory).opd.nonceLen = 12 ∧
      bufLen (loaded 0xffffffffffffffff len edgeMemory).opd ≤ 274877906880 :=
  ⟨fun _ _ => wholeSpace_populated _, fun len h =>
    let p := encrypt_premises len h
    ⟨p.1, p.2.1, p.2.2.1, p.2.2.2.1.symm ▸ p.2.2.2.2⟩⟩

theorem witness_EncryptIsAnInvolution :
    Memory.wf (loaded 0xffffffffffffffff 274877906880 edgeMemory).dmem = true ∧
    (loaded 0xffffffffffffffff 274877906880 edgeMemory).opd.keyLen = 32 ∧
    (loaded 0xffffffffffffffff 274877906880 edgeMemory).opd.nonceLen = 12 ∧
    bufLen (loaded 0xffffffffffffffff 274877906880 edgeMemory).opd ≤ 274877906880 ∧
    ∀ t, t < bufLen (loaded 0xffffffffffffffff 274877906880 edgeMemory).opd →
      dmemValid (loaded 0xffffffffffffffff 274877906880 edgeMemory).populated
        (dmemAddr (loaded 0xffffffffffffffff 274877906880 edgeMemory).opd t) = true :=
  ⟨by decide +kernel, by decide +kernel, by decide +kernel, by decide +kernel, fun _ _ => wholeSpace_populated _⟩

/-- 64 zero bytes. -/
theorem witness_EncryptingZerosGivesTheKeystream :
    Memory.wf (loaded 0x1000 64 []).dmem = true ∧ (loaded 0x1000 64 []).opd.keyLen = 32 ∧
    (loaded 0x1000 64 []).opd.nonceLen = 12 ∧ bufLen (loaded 0x1000 64 []).opd = 64 ∧
    (∀ t, t < bufLen (loaded 0x1000 64 []).opd →
      dmemValid (loaded 0x1000 64 []).populated (dmemAddr (loaded 0x1000 64 []).opd t) = true) ∧
    ∀ t, t < bufLen (loaded 0x1000 64 []).opd → memRead (loaded 0x1000 64 []).dmem (dmemAddr (loaded 0x1000 64 []).opd t) = 0 :=
  ⟨by decide +kernel, by decide +kernel, by decide +kernel, by decide +kernel, fun _ _ => wholeSpace_populated _,
    fun _ _ => rfl⟩

theorem witness_EmptyBufferEncrypt :
    (unpopulated 0).opd.keyLen = 32 ∧ (unpopulated 0).opd.nonceLen = 12 ∧ bufLen (unpopulated 0).opd = 0 := by decide +kernel

/-- Every index falls under exactly one of the three clauses. -/
theorem witness_ClampMasksR :
    ∀ i : Fin 16, ([[3, 7, 11, 15], [4, 8, 12], [0, 1, 2, 5, 6, 9, 10, 13, 14]].filter fun l => i ∈ l).length = 1 := by decide

/-- The last chunk of 17 bytes has one byte, that of 16 bytes is full. -/
theorem witness_ChunksPartitionTheMessage :
    1 < nChunks 17 ∧ 17 / 16 ≤ 1 ∧ 0 < nChunks 16 ∧ 0 < 16 / 16 ∧ 0 < (chunk (fun _ => 0) 17 1).length ∧ 16 < 17 := by decide

theorem witness_ChunkValueAppendsOneByte :
    (List.replicate 16 (0xff : Byte)).length = 16 ∧ chunkValue [0x00] = chunkValue [0x00] := by decide

/-- The largest ACC and PR, and chunks of 1 and of 16 bytes. -/
theorem witness_AbsorbMagnitudes :
    let e := setAcc (2 ^ 130 - 6) (setOneTimeKey (2 ^ 124 - 1) 0 Engine.zero)
    (∀ c ∈ [[(0xff : Byte)], List.replicate 16 0xff], 1 ≤ c.length ∧ c.length ≤ 16) ∧
    e.acc < 2 ^ 130 - 5 ∧ e.pr < 2 ^ 124 := by decide +kernel

/-- The premises of TAG and VERIFY at the largest length there is. -/
theorem tag_premises :
    (loaded 0x1000 (2 ^ 64 - 1) []).opd.keyLen = 32 ∧ (loaded 0x1000 (2 ^ 64 - 1) []).opd.nonceLen = 12 ∧
    bufLen (loaded 0x1000 (2 ^ 64 - 1) []).opd = 2 ^ 64 - 1 ∧
    ∀ t, t < bufLen (loaded 0x1000 (2 ^ 64 - 1) []).opd →
      dmemValid (loaded 0x1000 (2 ^ 64 - 1) []).populated (dmemAddr (loaded 0x1000 (2 ^ 64 - 1) []).opd t) = true :=
  ⟨by decide +kernel, by decide +kernel, by decide +kernel, fun _ _ => wholeSpace_populated _⟩

theorem witness_TagComputesTheAuthenticator :
    ∃ s : State, s.opd.keyLen = 32 ∧ s.opd.nonceLen = 12 ∧
      ∀ t, t < bufLen s.opd → dmemValid s.populated (dmemAddr s.opd t) = true :=
  ⟨_, tag_premises.1, tag_premises.2.1, tag_premises.2.2.2⟩

theorem witness_VerifyAgreesWithTag :
    ∃ s : State, s.opd.keyLen = 32 ∧ s.opd.nonceLen = 12 ∧
      ∀ t, t < bufLen s.opd → dmemValid s.populated (dmemAddr s.opd t) = true :=
  ⟨_, tag_premises.1, tag_premises.2.1, tag_premises.2.2.2⟩

theorem witness_EmptyMessageTag :
    (unpopulated 0).opd.keyLen = 32 ∧ (unpopulated 0).opd.nonceLen = 12 ∧ bufLen (unpopulated 0).opd = 0 := by decide +kernel

/-- V8: the same two bytes at 0x1000 and around the end of the address space; TAG completes on both. -/
theorem witness_TagDoesNotDependOnPlacement :
    let s := loaded 0x1000 2 (place [0xaa, 0xbb] 0x1000 [])
    let s' := loaded 0xffffffffffffffff 2 edgeMemory
    s'.opd.key = s.opd.key ∧ s'.opd.nonce = s.opd.nonce ∧ bufLen s'.opd = bufLen s.opd ∧
    (∀ k, k < bufLen s.opd → memRead s'.dmem (dmemAddr s'.opd k) = memRead s.dmem (dmemAddr s.opd k)) ∧
    s.opd.keyLen = 32 ∧ s.opd.nonceLen = 12 ∧ s'.opd.keyLen = 32 ∧ s'.opd.nonceLen = 12 ∧
    (∃ t, exec .tag s = .next t) ∧ ∃ t', exec .tag s' = .next t' := by
  refine ⟨by decide +kernel, by decide +kernel, by decide +kernel, by decide +kernel, by decide +kernel, by decide +kernel,
    by decide +kernel, by decide +kernel, ?_, ?_⟩
  · rw [exec_tag, lengthCheck_none (by decide +kernel) (by decide +kernel)]
    exact ⟨_, if_pos ((bufferPopulated_iff _ _).2 fun _ _ => wholeSpace_populated _)⟩
  · rw [exec_tag, lengthCheck_none (by decide +kernel) (by decide +kernel)]
    exact ⟨_, if_pos ((bufferPopulated_iff _ _).2 fun _ _ => wholeSpace_populated _)⟩

/-- A state that meets the invariant with a command waiting, which a step carries out. -/
theorem witness_StepKeepsTheInvariant :
    (waiting (.bus 0x10000000001#41)).Inv ∧ ∃ t, step (waiting (.bus 0x10000000001#41)) = .next t :=
  ⟨⟨rfl, rfl, by decide, fun h => absurd rfl h⟩, of_isSome (by decide +kernel)⟩

theorem witness_RunsConsumeInputsInOrder : ∃ t, t ≠ waiting (.bus 0x00400000000#41) ∧ Reaches (waiting (.bus 0x00400000000#41)) t :=
  ⟨{ State.reset with responses := [0] }, by decide +kernel, .tail .refl (by rfl)⟩

end Sys2Proof.Tests
end

section
/-! Host accesses at reserved offsets, the zero register groups, and the commands whose key length is wrong: obligations O7 and
O22. -/

open Sys2Proof Sys2Proof.Machine

namespace Sys2Proof.Machine

/-! ### Reserved offsets -/

/-- The offsets without a register are those that R37 lists (a check of the 256 offsets). -/
theorem regAt_eq_reserved_iff : ∀ o : Offset,
    regAt o = .reserved ↔ o = 0x4C ∨ (0x70 ≤ o.toNat ∧ o.toNat ≤ 0xFC) ∨ o.toNat % 4 ≠ 0 := by
  decide +kernel

@[simp] theorem writeOperand_reserved (v : Word) (o : OperandRegs) : writeOperand .reserved v o = o := rfl

@[simp] theorem readReg_reserved (s : State) : readReg .reserved s = 0 := rfl

@[simp] theorem setOpd_self (s : State) : setOpd s.opd s = s := rfl

/-- A read returns the value of the register at its offset and changes nothing else (R166). -/
theorem exec_rd (o : Offset) (s : State) :
    exec (.rd o) s = .next { s with responses := s.responses ++ [readReg (regAt o) s] } := rfl

/-- A write to a reserved offset is ignored (R37). -/
theorem exec_wr_reserved {o : Offset} (h : regAt o = .reserved) (v : Word) (s : State) : exec (.wr o v) s = .next s := by
  rw [exec_wr_other (by simp [h]), h, writeOperand_reserved, setOpd_self]

/-- A read of a reserved offset returns 0 (R37). -/
theorem exec_rd_reserved {o : Offset} (h : regAt o = .reserved) (s : State) :
    exec (.rd o) s = .next { s with responses := s.responses ++ [0] } := by
  rw [exec_rd, h, readReg_reserved]

/-! ### Zero registers, word by word and byte by byte (R42, R169) -/

@[simp] theorem OperandRegs.zero_key (j : Nat) (h : j < 8) : OperandRegs.zero.key[j] = 0 := Vector.getElem_replicate h

@[simp] theorem OperandRegs.zero_nonce (j : Nat) (h : j < 3) : OperandRegs.zero.nonce[j] = 0 := Vector.getElem_replicate h

@[simp] theorem OperandRegs.zero_tagIn (j : Nat) (h : j < 4) : OperandRegs.zero.tagIn[j] = 0 := Vector.getElem_replicate h

@[simp] theorem Engine.zero_w (i : Nat) (h : i < 16) : Engine.zero.w[i] = 0 := Vector.getElem_replicate h

@[simp] theorem Engine.zero_ks (i : Nat) (h : i < 64) : Engine.zero.ks[i] = 0 := Vector.getElem_replicate h

@[simp] theorem Engine.zero_tagc (i : Nat) (h : i < 16) : Engine.zero.tagc[i] = 0 := Vector.getElem_replicate h

@[simp] theorem State.reset_tagOut (j : Nat) (h : j < 4) : State.reset.tagOut[j] = 0 := Vector.getElem_replicate h

/-! ### A wrong key length -/

@[simp] theorem outcomeStatus_invalidKeyLength : outcomeStatus (.error .invalidKeyLength) = 0x00000102#32 :=
  outcomeStatus_error .invalidKeyLength

/-- The key length is checked first (R181, R187). -/
theorem lengthCheck_of_keyLen_ne {o : OperandRegs} (h : o.keyLen ≠ 32) : lengthCheck o = some .invalidKeyLength :=
  if_pos h

theorem cipherCheck_of_keyLen_ne {o : OperandRegs} (h : o.keyLen ≠ 32) : cipherCheck o = some .invalidKeyLength := by
  rw [cipherCheck, lengthCheck_of_keyLen_ne h]

/-- ENCRYPT, TAG and VERIFY with a key length other than 32 end with InvalidKeyLength, whatever the buffer (R181, R185). -/
theorem exec_transform_of_keyLen_ne {i : Instr} {s : State} (hi : i = .encrypt ∨ i = .tag ∨ i = .verify)
    (h : s.opd.keyLen ≠ 32) : exec i s = .next (raiseError .invalidKeyLength s) := by
  obtain rfl | rfl | rfl := hi
  · rw [exec_encrypt, cipherCheck_of_keyLen_ne h]
  · rw [exec_tag, lengthCheck_of_keyLen_ne h]
  · rw [exec_verify, lengthCheck_of_keyLen_ne h]

/-- Taking an error in the reset state writes STATUS and nothing else: what the completion clear writes is 0 already (R42, R186). -/
theorem raiseError_reset (e : StructuralError) :
    raiseError e State.reset = { State.reset with status := outcomeStatus (.error e) } := rfl

end Sys2Proof.Machine

/-- Settles O7: the offsets of R37 are those with no row in the register map, and both accesses look the register up. -/
theorem reservedOffsetsAreInert : Obligations.ReservedOffsetsAreInert := by
  intro o v s ho
  have hr : regAt o = .reserved := (regAt_eq_reserved_iff o).2 ho
  exact ⟨exec_wr_reserved hr v s, exec_rd_reserved hr s⟩

/-- Settles O22: the reset state is made of the zero register groups, and its key length 0 is not 32. -/
theorem resetValues : Obligations.ResetValues := by
  refine ⟨rfl, rfl, rfl, rfl, rfl, rfl, fun j => OperandRegs.zero_key j j.isLt, fun j => OperandRegs.zero_nonce j j.isLt,
    fun j => OperandRegs.zero_tagIn j j.isLt, fun j => State.reset_tagOut j j.isLt, fun i => Engine.zero_w i i.isLt, rfl,
    fun i => Engine.zero_ks i i.isLt, hardwareReset_dmem, rfl, rfl, rfl, fun i => Engine.zero_tagc i i.isLt, ?_⟩
  intro i hi
  have hk : State.reset.opd.keyLen ≠ 32 := by decide
  rw [exec_transform_of_keyLen_ne hi hk, raiseError_reset, outcomeStatus_invalidKeyLength]
  rfl

end

section
/-! Byte order as sums, and the byte string a group of registers carries as a concatenation: obligations O24 and O25. -/

open Sys2Proof Sys2Proof.Machine

namespace Sys2Proof.Machine

/-! ### The sums of R50 and R51 -/

/-- A concatenation of bit vectors as a sum: the low part fits below the shifted high part. -/
theorem toNat_append_eq_add {m n : Nat} (x : BitVec m) (y : BitVec n) : (x ++ y).toNat = 2 ^ n * x.toNat + y.toNat := by
  rw [BitVec.toNat_append, ← Nat.shiftLeft_add_eq_or_of_lt y.isLt, Nat.shiftLeft_eq, Nat.mul_comm]

theorem le32_toNat (b0 b1 b2 b3 : Byte) :
    (le32 b0 b1 b2 b3).toNat = b0.toNat + 2 ^ 8 * b1.toNat + 2 ^ 16 * b2.toNat + 2 ^ 24 * b3.toNat := by
  simp only [le32, toNat_append_eq_add]
  omega

/-- `LE32` is `le_int` on 4 bytes (R51): Horner's form of the same sum. -/
theorem le32_toNat_eq_leInt (b0 b1 b2 b3 : Byte) : (le32 b0 b1 b2 b3).toNat = leInt [b0, b1, b2, b3] := by
  rw [le32_toNat]
  simp only [leInt]
  omega

theorem leInt_eq_sum (b : List Byte) : leInt b = ∑ i : Fin b.length, b[i].toNat * 2 ^ (8 * i.val) := by
  induction b with
  | nil => rfl
  | cons b bs ih =>
    have weight (x i : Nat) : x * 2 ^ (8 * (i + 1)) = 2 ^ 8 * (x * 2 ^ (8 * i)) := by ring
    simp only [leInt, ih, List.length_cons, Fin.sum_univ_succ, Finset.mul_sum]
    simp [weight]

theorem leBytes_toNat (v n i : Nat) (hi : i < n) : (leBytes v n)[i].toNat = v / 2 ^ (8 * i) % 256 := by
  simp [leBytes]

/-! ### Groups of registers (R52) -/

/-- `packBytes_unpackWords` register by register. -/
theorem reg_eq_le32_unpackWords {n : Nat} (r : Vector Word n) (j : Nat) (hj : j < n) :
    r[j] = le32 (unpackWords r)[4 * j] (unpackWords r)[4 * j + 1] (unpackWords r)[4 * j + 2] (unpackWords r)[4 * j + 3] := by
  rw [← packBytes_get _ _ hj, packBytes_unpackWords]

theorem toList_eq_ofFn {α : Type} {n : Nat} (v : Vector α n) : v.toList = List.ofFn fun i : Fin n => v[i.val] := by
  rw [← Vector.toList_ofFn, Vector.ofFn_getElem]

/-- The bytes a group of registers carries, cut into blocks of four: block j is `le_bytes32` of register j. -/
theorem unpackWords_toList {n : Nat} (r : Vector Word n) :
    (unpackWords r).toList = r.toList.flatMap fun w => (leBytes32 w).toList := by
  have block (j : Fin n) :
      (List.ofFn fun k : Fin 4 => (unpackWords r)[4 * j.val + k.val]) = (leBytes32 r[j.val]).toList := by
    rw [toList_eq_ofFn]
    exact congrArg List.ofFn (funext fun k => unpackWords_get_block r j k j.isLt k.isLt)
  calc (unpackWords r).toList
      = (List.ofFn fun j : Fin n => (leBytes32 r[j.val]).toList).flatten := by
        simp only [toList_eq_ofFn (unpackWords r), List.ofFn_mul', block]
    _ = r.toList.flatMap fun w => (leBytes32 w).toList := by
        rw [toList_eq_ofFn r, List.flatMap_def, List.map_ofFn]
        rfl

end Sys2Proof.Machine

/-- Settles O24, from the sum and the inverse law of each conversion; the two examples are computed. -/
theorem byteOrderConversions : Obligations.ByteOrderConversions :=
  ⟨fun b0 b1 b2 b3 => ⟨le32_toNat b0 b1 b2 b3, le32_toNat_eq_leInt b0 b1 b2 b3, leBytes32_le32 b0 b1 b2 b3⟩,
    fun w => ⟨rfl, le32_leBytes32 w⟩, leInt_eq_sum, fun v n i => leBytes_toNat v n i i.isLt,
    fun _ _ => leInt_leBytes, fun _ => leBytes_leInt, by decide, by decide⟩

/-- Settles O25: the key, the nonce and the expected tag are the byte strings of their register groups, and the tag is packed into
TAGOUT. -/
theorem registersCarryByteStrings : Obligations.RegistersCarryByteStrings :=
  ⟨fun o j => reg_eq_le32_unpackWords o.key j j.isLt, fun o j => reg_eq_le32_unpackWords o.nonce j j.isLt,
    fun o j => reg_eq_le32_unpackWords o.tagIn j j.isLt, fun tag j => packBytes_get (n := 4) tag j j.isLt,
    fun o => unpackWords_toList o.key, fun o => unpackWords_toList o.nonce, fun o => unpackWords_toList o.tagIn⟩

end

section
/-! The decoder as one comparison of the whole command word: obligation O3. -/

open Sys2Proof Sys2Proof.Machine

namespace Sys2Proof

/-- With the reserved bits 0, comparing the operation code is comparing the whole word (R72, R73). -/
theorem cmdOpc_eq_iff {c : Word} (h : cmdRsvz c = 0) (k : BitVec 8) : cmdOpc c = k ↔ c = k.setWidth 32 :=
  (and_iff_right h).symm.trans (cmdFields_iff c k)

/-- A word with a reserved bit set is no zero-extended operation code. -/
theorem ne_setWidth_of_cmdRsvz_ne {c : Word} (h : cmdRsvz c ≠ 0) (k : BitVec 8) : c ≠ k.setWidth 32 :=
  fun hc => h ((cmdFields_iff c k).2 hc).1

/-- `decode_cmd` by whole words: each command is "selected by the whole 32-bit word" (R73). -/
theorem decodeCmd_eq (c : Word) :
    decodeCmd c =
      if c = 0x00000001 then .encrypt else if c = 0x00000002 then .tag else if c = 0x00000003 then .verify
      else if c = 0x00000004 then .clear else .illegal := by
  unfold decodeCmd
  by_cases h : cmdRsvz c = 0
  · rw [if_neg (not_not_intro h)]
    simp only [cmdOpc_eq_iff h]
    rfl
  · have h1 : c ≠ 0x00000001 := ne_setWidth_of_cmdRsvz_ne h 0x01
    have h2 : c ≠ 0x00000002 := ne_setWidth_of_cmdRsvz_ne h 0x02
    have h3 : c ≠ 0x00000003 := ne_setWidth_of_cmdRsvz_ne h 0x03
    have h4 : c ≠ 0x00000004 := ne_setWidth_of_cmdRsvz_ne h 0x04
    rw [if_pos h, if_neg h1, if_neg h2, if_neg h3, if_neg h4]

/-- Illegal is the only decoded command word without an instruction (R74). -/
theorem CmdWord.instr?_eq_none_iff (w : CmdWord) : w.instr? = none ↔ w = .illegal := by
  cases w <;> simp [CmdWord.instr?]

end Sys2Proof

/-- Settles O3: a transaction by its field we, a command word by the comparison of whole words. -/
theorem decodingIsTotalAndExact : Obligations.DecodingIsTotalAndExact :=
  ⟨fun _ => rfl, fun c => ⟨decodeCmd_eq c, (decodeCmd c).instr?_eq_none_iff⟩⟩

end

section
/-! The word operations of the Block Engine and one stage of it: obligations O29, O30 and O31. -/

open Sys2Proof Sys2Proof.Machine

namespace Sys2Proof.Machine

/-! ### Addition and exclusive OR (R90, R91) -/

theorem add32_toNat (x y : Word) : (add32 x y).toNat = (x.toNat + y.toNat) % 2 ^ 32 := BitVec.toNat_add x y

@[simp] theorem add32_zero (x : Word) : add32 x 0 = x := BitVec.add_zero x

theorem add32_comm (x y : Word) : add32 x y = add32 y x := BitVec.add_comm x y

theorem add32_assoc (x y z : Word) : add32 (add32 x y) z = add32 x (add32 y z) := BitVec.add_assoc x y z

/-- A bit of the result is 1 exactly when the two bits differ (R91). -/
theorem xor32_getElem (x y : Word) (i : Nat) (hi : i < 32) : (xor32 x y)[i] = (x[i] != y[i]) := BitVec.getElem_xor hi

@[simp] theorem xor32_self (x : Word) : xor32 x x = 0 := BitVec.xor_self

@[simp] theorem xor32_zero (x : Word) : xor32 x 0 = x := BitVec.xor_zero

theorem xor32_assoc (x y z : Word) : xor32 (xor32 x y) z = xor32 x (xor32 y z) := BitVec.xor_assoc x y z

@[simp] theorem xor32_xor32_cancel (x y : Word) : xor32 (xor32 x y) y = x := by
  rw [xor32_assoc, xor32_self, xor32_zero]

/-! ### Rotation (R92) -/

/-- Bit i moves to bit `(i + n) mod 32`: the n bits at the top wrap around to the bottom, the others move up by n. -/
theorem rotl32_getLsbD (v : Word) (n : Fin 32) (i : Nat) (hi : i < 32) : (rotl32 v n).getLsbD ((i + n.val) % 32) = v[i] := by
  rw [BitVec.getLsbD_eq_getElem (Nat.mod_lt _ (by decide)), rotl32, BitVec.getElem_rotateLeft]
  by_cases wraps : 32 ≤ i + n.val
  · have low : (i + n.val) % 32 < n.val % 32 := by omega
    rw [dif_pos low]
    congr 1
    omega
  · have high : ¬ (i + n.val) % 32 < n.val % 32 := by omega
    rw [dif_neg high]
    congr 1
    omega

/-- The 32 moved bits are all the bits of the result, so they determine it. -/
theorem rotl32_eq_of_bits {u v : Word} {n : Fin 32} (h : ∀ (i : Nat) (_ : i < 32), u.getLsbD ((i + n.val) % 32) = v[i]) :
    rotl32 v n = u := by
  refine BitVec.eq_of_getLsbD_eq fun j hj => ?_
  have source : (j + (32 - n.val)) % 32 < 32 := Nat.mod_lt _ (by decide)
  have target : ((j + (32 - n.val)) % 32 + n.val) % 32 = j := by omega
  have moved := (rotl32_getLsbD v n _ source).trans (h _ source).symm
  rwa [target] at moved

/-- Rotation multiplies by 2^n; the part that leaves the word at the top comes back at the bottom. -/
theorem rotl32_toNat (v : Word) (n : Fin 32) :
    (rotl32 v n).toNat = (v.toNat * 2 ^ n.val) % 2 ^ 32 + v.toNat / 2 ^ (32 - n.val) := by
  have width : 2 ^ 32 = 2 ^ n.val * 2 ^ (32 - n.val) := by rw [← Nat.pow_add, Nat.add_sub_cancel' n.isLt.le]
  have low : v.toNat / 2 ^ (32 - n.val) < 2 ^ n.val := Nat.div_lt_of_lt_mul (by rw [Nat.mul_comm, ← width]; exact v.isLt)
  have high : v.toNat * 2 ^ n.val % 2 ^ 32 = 2 ^ n.val * (v.toNat % 2 ^ (32 - n.val)) := by
    rw [width, Nat.mul_comm v.toNat, Nat.mul_mod_mul_left]
  rw [rotl32, BitVec.toNat_rotateLeft, Nat.mod_eq_of_lt n.isLt, Nat.shiftLeft_eq, Nat.shiftRight_eq_div_pow, high,
    Nat.two_pow_add_eq_or_of_lt low]

@[simp] theorem rotl32_zero_distance (v : Word) : rotl32 v 0 = v :=
  rotl32_eq_of_bits fun i hi => by
    rw [Fin.val_zero, Nat.add_zero, Nat.mod_eq_of_lt hi, BitVec.getLsbD_eq_getElem hi]

/-- Two rotations whose distances add up to 0 or 32 move every bit back to its place. -/
theorem rotl32_rotl32_of_add_mod_eq_zero {n m : Fin 32} (h : (n.val + m.val) % 32 = 0) (v : Word) :
    rotl32 (rotl32 v n) m = v := by
  refine BitVec.eq_of_getLsbD_eq fun i hi => ?_
  have mid : (i + n.val) % 32 < 32 := Nat.mod_lt _ (by decide)
  have back : ((i + n.val) % 32 + m.val) % 32 = i := by omega
  have first := rotl32_getLsbD v n i hi
  have second := rotl32_getLsbD (rotl32 v n) m _ mid
  rw [back, ← BitVec.getLsbD_eq_getElem mid, first] at second
  exact second

/-- A word whose bits all agree is fixed by every rotation. -/
theorem rotl32_of_bits_eq {v : Word} {b : Bool} (h : ∀ i < 32, v.getLsbD i = b) (n : Fin 32) : rotl32 v n = v :=
  rotl32_eq_of_bits fun i hi => by
    rw [h _ (Nat.mod_lt _ (by decide)), ← BitVec.getLsbD_eq_getElem hi, h i hi]

@[simp] theorem rotl32_allOnes (n : Fin 32) : rotl32 0xFFFFFFFF n = 0xFFFFFFFF :=
  rotl32_of_bits_eq (b := true) (by decide) n

@[simp] theorem rotl32_zero (n : Fin 32) : rotl32 0 n = 0 :=
  rotl32_of_bits_eq (b := false) (fun _ _ => BitVec.getLsbD_zero) n

/-! ### One stage (R93), register by register -/

theorem arxStage_get_added {x z : Fin 16} (hxz : x ≠ z) (y : Fin 16) (n : Fin 32) (w : Vector Word 16) :
    (arxStage x y z n w)[x] = add32 w[x] w[y] := by
  rw [arxStage_get x y z n w hxz, if_pos rfl, add32]

/-- The exclusive OR takes the register just written, not its old value. -/
theorem arxStage_get_rotated {x z : Fin 16} (hxz : x ≠ z) (y : Fin 16) (n : Fin 32) (w : Vector Word 16) :
    (arxStage x y z n w)[z] = rotl32 (xor32 w[z] (add32 w[x] w[y])) n := by
  rw [arxStage_get x y z n w hxz, if_neg hxz.symm, if_pos rfl, rotl32, xor32, add32]

theorem arxStage_get_other {x z i : Fin 16} (hxz : x ≠ z) (hix : i ≠ x) (hiz : i ≠ z) (y : Fin 16) (n : Fin 32)
    (w : Vector Word 16) : (arxStage x y z n w)[i] = w[i] := by
  rw [arxStage_get x y z n w hxz, if_neg hix, if_neg hiz]

end Sys2Proof.Machine

/-- Settles O30: where each bit goes determines the rotation, so the inverse and the fixed words follow from it; the examples are
computed. -/
theorem rotationIsTotal : Obligations.RotationIsTotal := by
  refine ⟨fun v n => ⟨fun i => rotl32_getLsbD v n i i.isLt, rotl32_toNat v n, ?_, rotl32_allOnes n, rotl32_zero n⟩,
    rotl32_zero_distance, by decide, by decide, by decide, by decide, by decide, by decide, by decide⟩
  have full_turn : (n.val + (32 - n.val) % 32) % 32 = 0 := by omega
  exact rotl32_rotl32_of_add_mod_eq_zero full_turn v

/-- Settles O31: the two written registers and the frame of a stage; only the written two need to be distinct. -/
theorem arxStageEffect : Obligations.ArxStageEffect :=
  fun _ y _ n w _ _ hxz => ⟨arxStage_get_added hxz y n w, arxStage_get_rotated hxz y n w,
    fun _ hix hiz => arxStage_get_other hxz hix hiz y n w⟩

/-- Settles O29: the group laws of the two operations and their meaning by value and by bit; the examples are computed. -/
theorem addAndXorWords : Obligations.AddAndXorWords :=
  ⟨fun x y z => ⟨add32_toNat x y, add32_zero x, add32_comm x y, add32_assoc x y z, fun i => xor32_getElem x y i i.isLt,
    xor32_self x, xor32_zero x, xor32_xor32_cancel x y⟩, by decide, by decide, by decide, by decide⟩

end

section
/-! The Stream Cipher's slices and what XorFold does to one of them: obligations O38 and O39. -/

open Sys2Proof Sys2Proof.Machine

namespace Sys2Proof.Machine

/-! ### The split of a length (R120) -/

theorem nBlocks_eq_ceil (len : Nat) : nBlocks len = (len + 63) / 64 := by
  unfold nBlocks
  by_cases tail : len % 64 = 0
  · rw [if_neg (not_not_intro tail)]
    omega
  · rw [if_pos tail]
    omega

theorem sliceLen_full {len j : Nat} (h : j < len / 64) : sliceLen len j = 64 := if_pos h

theorem sliceLen_tail (len : Nat) : sliceLen len (len / 64) = len % 64 := if_neg (Nat.lt_irrefl _)

/-- A byte of the buffer lies in slice `t / 64` and in no other; a byte outside lies in none, since the slices end inside the
buffer. -/
theorem lt_iff_existsUnique_slice (len t : Nat) :
    t < len ↔ ∃! j, j < nBlocks len ∧ 64 * j ≤ t ∧ t < 64 * j + sliceLen len j := by
  constructor
  · intro ht
    have hj : t / 64 < nBlocks len := (slice_of_byte ht).1
    exact ⟨t / 64, ⟨hj, (mem_slice_iff ht hj).2 rfl⟩, fun _ ⟨hi, hmem⟩ => (mem_slice_iff ht hi).1 hmem⟩
  · rintro ⟨j, ⟨hj, -, hend⟩, -⟩
    exact hend.trans_le (slice_bound hj)

end Sys2Proof.Machine

/-- Settles O38: the ceiling, the two slice lengths and the one slice of each byte; the corner cases of R120 are computed. -/
theorem slicesPartitionTheBuffer : Obligations.SlicesPartitionTheBuffer :=
  ⟨fun len => ⟨rfl, nBlocks_eq_ceil len, fun _ => sliceLen_full, sliceLen_tail len, lt_iff_existsUnique_slice len⟩,
    by decide, by decide, by decide, by decide, by decide, by decide⟩

/-- Settles O39: a slice inside the buffer ends below 2^64, so its bytes have distinct addresses and each is folded once. -/
theorem xorFoldEffect : Obligations.XorFoldEffect := by
  intro o j n ks m hm h64 hbuf
  have below : 64 * j + n ≤ 2 ^ 64 := hbuf.trans (bufLen_lt o).le
  exact ⟨fun i hi => xorFold_inside o j n ks hm below h64 i hi, xorFold_outside o j n ks m⟩

end

section
/-! The authenticator's parts (key generation, the message's chunks, Finalize) and the tag they give, on the empty message too:
obligations O46, O47, O51, O52 and O54. -/

open Sys2Proof Sys2Proof.Machine

namespace Sys2Proof.Machine

/-- A sub-string from byte 0 on, without the sum of indices. -/
theorem slice_zero {n len : Nat} (b : Vector Byte n) (h : 0 + len ≤ n) :
    slice b 0 len h = Vector.ofFn fun i : Fin len => b[i.val]'(by omega) := by
  simp only [slice, Nat.zero_add]

/-! ### What KeyGen leaves in each register (R136) -/

section
variable (key : Vector Byte 32) (nonce : Vector Byte 12) (e : Engine)

@[simp] theorem keyGen_ctr : (keyGen key nonce e).ctr = 0 := by
  rw [keyGen_eq, loadOneTimeKey_ctr, runBlock_ctr, setCtr_ctr]

@[simp] theorem keyGen_ks : (keyGen key nonce e).ks = block key nonce 0 := by
  rw [keyGen_eq, loadOneTimeKey_ks, runBlock_ks, setCtr_ctr]

/-- r is read from the block's bytes 0 to 15: the first half of its first half. -/
@[simp] theorem keyGen_pr :
    (keyGen key nonce e).pr = leInt (clamp (slice (block key nonce 0) 0 16 (by decide))).toList := by
  rw [keyGen_eq, loadOneTimeKey_pr, slice_slice]

/-- s is read from the block's bytes 16 to 31: the second half of its first half. -/
@[simp] theorem keyGen_ps : (keyGen key nonce e).ps = leInt (slice (block key nonce 0) 16 16 (by decide)).toList := by
  rw [keyGen_eq, loadOneTimeKey_ps, slice_slice]

@[simp] theorem keyGen_acc : (keyGen key nonce e).acc = e.acc := by
  rw [keyGen_eq, loadOneTimeKey_acc, runBlock_acc, setCtr_acc]

@[simp] theorem keyGen_tagc : (keyGen key nonce e).tagc = e.tagc := by
  rw [keyGen_eq, loadOneTimeKey_tagc, runBlock_tagc, setCtr_tagc]

end

/-! ### The split of a message (R138) -/

theorem nChunks_eq_ceil (len : Nat) : nChunks len = (len + 15) / 16 := by
  unfold nChunks
  by_cases tail : len % 16 = 0
  · rw [if_neg (not_not_intro tail)]
    omega
  · rw [if_pos tail]
    omega

theorem chunkLen_full {len k : Nat} (h : k < len / 16) : chunkLen len k = 16 := if_pos h

theorem chunkLen_tail {len k : Nat} (h : len / 16 ≤ k) : chunkLen len k = len % 16 := if_neg (Nat.not_lt.2 h)

theorem chunkLen_le (len k : Nat) : chunkLen len k ≤ 16 := by
  rcases Nat.lt_or_ge k (len / 16) with full | tail
  · rw [chunkLen_full full]
  · rw [chunkLen_tail tail]
    omega

/-- No chunk is empty: there is a chunk after the full ones only when bytes are left over. -/
theorem chunkLen_pos {len k : Nat} (h : k < nChunks len) : 1 ≤ chunkLen len k := by
  rw [nChunks_eq_ceil] at h
  rcases Nat.lt_or_ge k (len / 16) with full | tail
  · rw [chunkLen_full full]
    omega
  · rw [chunkLen_tail tail]
    omega

/-- A chunk ends 16 bytes after its start or at the end of the message, whichever comes first. -/
theorem chunk_end {len k : Nat} (h : k < nChunks len) : 16 * k + chunkLen len k = min (16 * k + 16) len := by
  rw [nChunks_eq_ceil] at h
  rcases Nat.lt_or_ge k (len / 16) with full | tail
  · rw [chunkLen_full full]
    omega
  · rw [chunkLen_tail tail]
    omega

/-- A byte of the message lies in chunk `t / 16` and in no other; a byte outside lies in none, since the chunks end inside the
message. -/
theorem lt_iff_existsUnique_chunk (len t : Nat) :
    t < len ↔ ∃! k, k < nChunks len ∧ 16 * k ≤ t ∧ t < 16 * k + chunkLen len k := by
  constructor
  · intro ht
    have hk : t / 16 < nChunks len := by
      rw [nChunks_eq_ceil]
      omega
    have hin : 16 * (t / 16) ≤ t ∧ t < 16 * (t / 16) + chunkLen len (t / 16) := by
      rw [chunk_end hk]
      omega
    refine ⟨t / 16, ⟨hk, hin⟩, fun k ⟨_, hlo, hhi⟩ => ?_⟩
    have := chunkLen_le len k
    omega
  · rintro ⟨k, ⟨hk, -, hhi⟩, -⟩
    rw [chunk_end hk] at hhi
    omega

@[simp] theorem chunk_length (msg : Nat → Byte) (len k : Nat) : (chunk msg len k).length = chunkLen len k := by
  rw [chunk, List.length_map, List.length_range]

/-- Byte i of chunk k is message byte 16k + i. -/
theorem chunk_getElem? (msg : Nat → Byte) {len k i : Nat} (h : i < chunkLen len k) :
    (chunk msg len k)[i]? = some (msg (16 * k + i)) := by
  rw [chunk, List.getElem?_map, List.getElem?_range h, Option.map_some]

/-! ### Finalize (R142) -/

/-- The sum modulo 2^128 fits in the 16 bytes of TAGC, so reading them gives it back. -/
theorem leInt_finalize_tagc (e : Engine) : leInt (finalize e).tagc.toList = (e.acc + e.ps) % 2 ^ 128 := by
  rw [finalize_tagc]
  exact leInt_leBytes (Nat.mod_lt _ (Nat.two_pow_pos _))

/-! ### The tag of the empty message (R148) -/

/-- With no chunk ACC stays 0, and s alone is below 2^128: its bytes come out as they went in. -/
theorem macTag_empty (otk : Vector Byte 32) (msg : Nat → Byte) : macTag otk msg 0 = slice otk 16 16 (by decide) := by
  have noChunk (r : Nat) : accAfter msg 0 r (nChunks 0) = 0 := rfl
  have fits : leInt (slice otk 16 16 (by decide)).toList < 2 ^ 128 := by
    simpa using leInt_lt (slice otk 16 16 (by decide)).toList
  rw [macTag, noChunk, Nat.zero_add, Nat.mod_eq_of_lt fits, leBytes_leInt]

theorem commandTag_empty {s : State} (h : bufLen s.opd = 0) :
    commandTag s = slice (block (keyBytes s.opd) (nonceBytes s.opd) 0) 16 16 (by decide) := by
  rw [commandTag, h, macTag_empty, slice_slice]

/-- TAG with accepted lengths on a populated buffer completes with the tag of its message (R145). -/
theorem exec_tag_completes {s : State} (hk : s.opd.keyLen = 32) (hn : s.opd.nonceLen = 12)
    (hp : ∀ t, t < bufLen s.opd → dmemValid s.populated (dmemAddr s.opd t) = true) :
    exec .tag s = .next { s with status := 0x00000001, tagOut := packBytes (n := 4) (commandTag s),
                                 opd := OperandRegs.zero, eng := Engine.zero } := by
  rw [exec_tag, lengthCheck_none hk hn]
  exact if_pos ((bufferPopulated_iff _ _).2 hp)

end Sys2Proof.Machine

/-- Settles O46, register by register; the halves of the one-time key are sub-strings of the block at counter 0. -/
theorem keyGenEffect : Obligations.KeyGenEffect := by
  intro key nonce e
  have hr := keyGen_pr key nonce e
  rw [slice_zero] at hr
  exact ⟨keyGen_ctr key nonce e, keyGen_ks key nonce e, hr, keyGen_ps key nonce e, keyGen_acc key nonce e,
    keyGen_tagc key nonce e⟩

/-- Settles O47: the ceiling, the length and the bytes of each chunk, and the one chunk of each byte. -/
theorem chunksPartitionTheMessage : Obligations.ChunksPartitionTheMessage := by
  intro msg len
  simp only [chunk_length]
  exact ⟨nChunks_eq_ceil len, rfl, fun _ _ _ => rfl,
    fun k hk => ⟨chunkLen_pos hk, chunkLen_le len k, chunkLen_full, chunkLen_tail, fun _ => chunk_getElem? msg⟩,
    lt_iff_existsUnique_chunk len⟩

/-- Settles O51: TAGC holds the 16 bytes of the sum modulo 2^128, and Finalize writes TAGC only. -/
theorem finalizeEffect : Obligations.FinalizeEffect :=
  fun e => ⟨leInt_finalize_tagc e, fun i => leBytes_toNat _ 16 i i.isLt, rfl⟩

/-- Settles O52: both sides leave the tag of the same message under the same one-time key, and neither depends on the engine. -/
theorem tagIsTheMacUnderTheDerivedKey : Obligations.TagIsTheMacUnderTheDerivedKey := by
  intro s e
  rw [tagWork_tagc, poly1305Mac_tagc, slice_zero]
  rfl

/-- Settles O54: an empty buffer has no address that could be unpopulated, and its tag is s. -/
theorem emptyMessageTag : Obligations.EmptyMessageTag := by
  intro s hk hn hlen
  have hp : ∀ t, t < bufLen s.opd → dmemValid s.populated (dmemAddr s.opd t) = true :=
    fun t ht => absurd ht (by omega)
  refine ⟨packBytes (n := 4) (commandTag s), exec_tag_completes hk hn hp, fun i => ?_⟩
  simp only [unpackWords_packBytes, commandTag_empty hlen, slice, Vector.getElem_ofFn]

end

section
/-! The host's accesses to a register by the row of the register map it hits: obligations O5 and O6. -/

open Sys2Proof Sys2Proof.Machine

namespace Sys2Proof.Machine

/-! ### The register map (R26), groups of registers by index -/

theorem regAt_key : ∀ j : Fin 8, regAt (BitVec.ofNat 8 (0x20 + 4 * j.val)) = .key j := by decide

theorem regAt_nonce : ∀ j : Fin 3, regAt (BitVec.ofNat 8 (0x40 + 4 * j.val)) = .nonce j := by decide

theorem regAt_tagIn : ∀ j : Fin 4, regAt (BitVec.ofNat 8 (0x50 + 4 * j.val)) = .tagIn j := by decide

theorem regAt_tagOut : ∀ j : Fin 4, regAt (BitVec.ofNat 8 (0x60 + 4 * j.val)) = .tagOut j := by decide

/-- The offsets at which a write is ignored: STATUS, TAGOUT and those without a register (a check of the 256 offsets). -/
theorem regAt_of_not_writable : ∀ o : Offset, o.toNat % 4 ≠ 0 ∨ o = 0x04 ∨ o = 0x4C ∨ 0x60 ≤ o.toNat →
    regAt o = .status ∨ (∃ j, regAt o = .tagOut j) ∨ regAt o = .reserved := by
  decide +kernel

/-- The offsets that read 0: CMD, the key and those without a register (a check of the 256 offsets). -/
theorem regAt_of_not_readable : ∀ o : Offset,
    o.toNat % 4 ≠ 0 ∨ o = 0x00 ∨ (0x20 ≤ o.toNat ∧ o.toNat < 0x40) ∨ o = 0x4C ∨ 0x70 ≤ o.toNat →
    regAt o = .cmd ∨ (∃ j, regAt o = .key j) ∨ regAt o = .reserved := by
  decide +kernel

/-! ### An access by the register it hits -/

/-- A write that hits a register other than CMD (R165). -/
theorem exec_wr_reg {o : Offset} {r : Reg} (h : regAt o = r) (hr : r ≠ .cmd) (v : Word) (s : State) :
    exec (.wr o v) s = .next { s with opd := writeOperand r v s.opd } := by
  subst h
  exact exec_wr_other hr v s

/-- A read that hits a register (R166). -/
theorem exec_rd_reg {o : Offset} {r : Reg} (h : regAt o = r) (s : State) :
    exec (.rd o) s = .next { s with responses := s.responses ++ [readReg r s] } := by
  subst h
  exact exec_rd o s

end Sys2Proof.Machine

/-- Settles O5: each clause looks its offset up in the register map; STATUS, TAGOUT and the reserved offsets ignore the value. -/
theorem writeEffect : Obligations.WriteEffect := by
  intro v s
  refine ⟨exec_wr_cmd v s, exec_wr_reg (r := .keyLen) rfl nofun v s, exec_wr_reg (r := .nonceLen) rfl nofun v s,
    exec_wr_reg (r := .bufAddrLo) rfl nofun v s, exec_wr_reg (r := .bufAddrHi) rfl nofun v s,
    exec_wr_reg (r := .bufLenLo) rfl nofun v s, exec_wr_reg (r := .bufLenHi) rfl nofun v s,
    fun j => exec_wr_reg (regAt_key j) nofun v s, fun j => exec_wr_reg (regAt_nonce j) nofun v s,
    fun j => exec_wr_reg (regAt_tagIn j) nofun v s, fun o ho => ?_⟩
  obtain hr | ⟨j, hr⟩ | hr := regAt_of_not_writable o ho
  · exact exec_wr_reg hr nofun v s
  · exact exec_wr_reg hr nofun v s
  · exact exec_wr_reserved hr v s

/-- Settles O6: each clause looks its offset up in the register map; CMD, the key and the reserved offsets read 0. -/
theorem readEffect : Obligations.ReadEffect := by
  intro s
  refine ⟨exec_rd_reg (r := .status) rfl s, exec_rd_reg (r := .keyLen) rfl s, exec_rd_reg (r := .nonceLen) rfl s,
    exec_rd_reg (r := .bufAddrLo) rfl s, exec_rd_reg (r := .bufAddrHi) rfl s, exec_rd_reg (r := .bufLenLo) rfl s,
    exec_rd_reg (r := .bufLenHi) rfl s, fun j => exec_rd_reg (regAt_nonce j) s, fun j => exec_rd_reg (regAt_tagIn j) s,
    fun j => exec_rd_reg (regAt_tagOut j) s, fun o ho => ?_⟩
  obtain hr | ⟨j, hr⟩ | hr := regAt_of_not_readable o ho
  · exact exec_rd_reg hr s
  · exact exec_rd_reg hr s
  · exact exec_rd_reserved hr s

end

section
/-! How a command ends, what it leaves and what it does not read: obligations O12, O17 and O18. -/

open Sys2Proof Sys2Proof.Machine

namespace Sys2Proof.Machine

/-! ### The end of a command (R168) -/

/-- The outcomes with which the command of a decoded word can end (R9, R168 step 3): each of ENCRYPT, TAG, VERIFY and CLEAR has its
own, and an error ends every command but CLEAR. -/
def CommandOutcome.EndOf : CommandOutcome → CmdWord → Prop
  | .encrypted, w => w = .encrypt
  | .tagged _, w => w = .tag
  | .verified _, w => w = .verify
  | .error _, w => w ≠ .clear
  | .cleared, w => w = .clear

theorem guardedCommand_finishes {check : Option StructuralError} {work : State → State} {outcome : State → CommandOutcome}
    {w : CmdWord} {s t : State} (h : guardedCommand check work outcome s = .next t) (hw : w ≠ .clear)
    (ho : ∀ u, (outcome u).EndOf w) : ∃ (oc : CommandOutcome) (u : State), oc.EndOf w ∧ t = finish oc u := by
  obtain ⟨e, -, rfl⟩ | ⟨-, -, rfl⟩ := guardedCommand_next h
  · exact ⟨.error e, s, hw, rfl⟩
  · exact ⟨outcome (work s), work s, ho _, rfl⟩

/-- Every command that answers next ends in steps 3 and 4 of the command frame, with an outcome of its word (R168). -/
theorem command_finishes {c : Word} {s t : State} (h : command c s = .next t) :
    ∃ (oc : CommandOutcome) (u : State), oc.EndOf (decodeCmd c) ∧ t = finish oc u := by
  unfold command at h
  cases hc : decodeCmd c with rw [hc] at h
  | encrypt => exact guardedCommand_finishes h nofun fun _ => rfl
  | tag => exact guardedCommand_finishes h nofun fun _ => rfl
  | verify => exact guardedCommand_finishes h nofun fun _ => rfl
  | clear => exact ⟨.cleared, s, rfl, (Host.Outcome.next.inj h).symm⟩
  | illegal => exact ⟨.error .illegalCommand, s, nofun, (Host.Outcome.next.inj h).symm⟩

/-- A write to CMD that answers next is such a command (R27). -/
theorem exec_wr_cmd_finishes {c : Word} {s t : State} (h : exec (.wr 0x00 c) s = .next t) :
    ∃ (oc : CommandOutcome) (u : State), oc.EndOf (decodeCmd c) ∧ t = finish oc u :=
  command_finishes ((exec_wr_cmd c s).symm.trans h)

/-- Of all words only 2 is TAG (R73). -/
theorem eq_two_of_decodeCmd_eq_tag {c : Word} (h : decodeCmd c = .tag) : c = 0x00000002 := by
  rw [decodeCmd_eq] at h
  split_ifs at h with _ h2
  exact h2

/-! ### CLEAR (R167) -/

/-- The whole of CLEAR: what reset does. -/
theorem exec_clear (s : State) : exec .clear s = .next (hardwareReset s) := by
  rw [← finish_cleared_eq_hardwareReset]
  rfl

/-! ### The result registers (R170) -/

/-- No command reads STATUS or TAGOUT: each writes both, and its checks, its work and its tag are of other fields. -/
theorem command_ignores_results (c status : Word) (tagOut : Vector Word 4) (s : State) :
    command c { s with status := status, tagOut := tagOut } = command c s := by
  rw [command_eq, command_eq]
  cases decodeCmd c with
  | encrypt =>
    show exec .encrypt _ = exec .encrypt _
    rw [exec_encrypt, exec_encrypt]
    rfl
  | tag =>
    show exec .tag _ = exec .tag _
    rw [exec_tag, exec_tag]
    rfl
  | verify =>
    show exec .verify _ = exec .verify _
    rw [exec_verify, exec_verify]
    rfl
  | clear => rfl
  | illegal => rfl

/-- A host store that answers next changes DMEM only (R44, R63). -/
theorem hostStore_next {a : Addr} {v : Byte} {s t : State} (h : hostStore a v s = .next t) :
    dmemValid s.populated a = true ∧ t = setDmem (memWrite s.dmem a v) s := by
  unfold hostStore at h
  split at h
  · exact ⟨‹_›, (Host.Outcome.next.inj h).symm⟩
  · cases h

/-- A write outside CMD reaches the operand registers only (R165). -/
theorem exec_wr_other_next {o : Offset} {v : Word} {s t : State} (ho : o ≠ 0x00) (h : exec (.wr o v) s = .next t) :
    t = setOpd (writeOperand (regAt o) v s.opd) s := by
  rw [exec_wr_other (mt (regAt_eq_cmd_iff o).1 ho)] at h
  exact (Host.Outcome.next.inj h).symm

/-- A read reaches the values returned to the host only (R166). -/
theorem exec_rd_next {o : Offset} {s t : State} (h : exec (.rd o) s = .next t) : t = respond (readReg (regAt o) s) s :=
  (Host.Outcome.next.inj h).symm

/-- Only TAG ends with a non-zero TAGOUT. -/
theorem CommandOutcome.EndOf.eq_tag_of_tagOut_ne {oc : CommandOutcome} {w : CmdWord} (h : oc.EndOf w)
    (hne : outcomeTagOut oc ≠ Vector.replicate 4 0) : w = .tag := by
  cases oc with
  | tagged tag => exact h
  | _ => exact absurd rfl hne

end Sys2Proof.Machine

/-- Settles O17: CLEAR is reset's record update, which the reset state already satisfies. -/
theorem clearEffect : Obligations.ClearEffect :=
  ⟨exec_clear, exec_clear, exec_clear State.reset⟩

/-- Settles O12: every command ends in the completion clear, which leaves the zero register groups, and key length 0 is not 32. -/
theorem completionClearAfterEveryCommand : Obligations.CompletionClearAfterEveryCommand := by
  refine ⟨fun c s t h => ?_, fun s => ⟨completionClear_status s, completionClear_tagOut s, completionClear_dmem s⟩⟩
  obtain ⟨oc, u, -, rfl⟩ := exec_wr_cmd_finishes h
  have hk : (finish oc u).opd.keyLen ≠ 32 := by
    rw [finish_opd]
    decide
  refine ⟨rfl, rfl, rfl, rfl, rfl, rfl, fun j => OperandRegs.zero_key j j.isLt, fun j => OperandRegs.zero_nonce j j.isLt,
    fun j => OperandRegs.zero_tagIn j j.isLt, fun i => Engine.zero_w i i.isLt, rfl, fun i => Engine.zero_ks i i.isLt, rfl, rfl,
    rfl, fun i => Engine.zero_tagc i i.isLt, fun i hi => ?_⟩
  rw [exec_transform_of_keyLen_ne hi hk, raiseError_eq, outcomeStatus_invalidKeyLength]
  rfl

/-- Settles O18: the three accesses that are no command reach other fields; a command writes both result registers without reading
them, and of its outcomes only TAG's has a non-zero TAGOUT. -/
theorem resultRegistersHoldTheLastOutcome : Obligations.ResultRegistersHoldTheLastOutcome := by
  refine ⟨fun o v s t h => ?_, fun a v s t h => ?_, fun c status tagOut s => ?_, fun c s t h hne => ?_⟩
  · obtain ⟨ho, hw⟩ | hr := h
    · rw [exec_wr_other_next ho hw]
      exact ⟨setOpd_status _ s, setOpd_tagOut _ s⟩
    · rw [exec_rd_next hr]
      exact ⟨respond_status _ s, respond_tagOut _ s⟩
  · obtain ⟨-, rfl⟩ := hostStore_next h
    exact ⟨setDmem_status _ s, setDmem_tagOut _ s⟩
  · exact (exec_wr_cmd c _).trans ((command_ignores_results c status tagOut s).trans (exec_wr_cmd c s).symm)
  · obtain ⟨oc, u, hoc, rfl⟩ := exec_wr_cmd_finishes h
    rw [finish_tagOut] at hne
    refine ⟨eq_two_of_decodeCmd_eq_tag (hoc.eq_tag_of_tagOut_ne hne), ?_⟩
    rw [finish_status, outcomeTagOut_ne_zero hne]
    rfl

end

section
/-! Taking an exception and which of several errors a command reports: obligations O15 and O16. -/

open Sys2Proof Sys2Proof.Machine

namespace Sys2Proof.Machine

/-! ### The effect of `raise` (R186) -/

/-- With only ERR set, the STATUS word is a sum: the code starts at bit 8 and ERR is bit 1 (a check of the 16 codes). -/
theorem statusWord_err_eq_add : ∀ code : BitVec 4,
    statusWord false true false code = 0x00000002 + 0x100 * code.setWidth 32 := by
  decide

/-- `raiseError` as one record, under any spelling of its STATUS value. -/
theorem raiseError_eq_of_status {e : StructuralError} {status : Word} (h : outcomeStatus (.error e) = status) (s : State) :
    raiseError e s =
      { s with status := status, tagOut := Vector.replicate 4 0, opd := OperandRegs.zero, eng := Engine.zero } := by
  rw [raiseError_eq, h]

/-- The same of the answer that carries the state. -/
theorem next_raiseError_of_status {e : StructuralError} {status : Word} (h : outcomeStatus (.error e) = status) (s : State) :
    (.next (raiseError e s) : Host.Outcome State Fault Refusal) =
      .next { s with status := status, tagOut := Vector.replicate 4 0, opd := OperandRegs.zero, eng := Engine.zero } :=
  congrArg Host.Outcome.next (raiseError_eq_of_status h s)

/-! ### A write to CMD by what its word decodes to (R73, R74, R168) -/

theorem exec_wr_cmd_of_instr {c : Word} {i : Instr} (h : (decodeCmd c).instr? = some i) (s : State) :
    exec (.wr 0x00 c) s = exec i s := by
  rw [exec_wr_cmd, command_eq, h]

theorem exec_wr_cmd_of_no_instr {c : Word} (h : (decodeCmd c).instr? = none) (s : State) :
    exec (.wr 0x00 c) s = .next (raiseError .illegalCommand s) := by
  rw [exec_wr_cmd, command_eq, h]

theorem decodeCmd_eq_illegal {c : Word} (h : c ≠ 0x00000001 ∧ c ≠ 0x00000002 ∧ c ≠ 0x00000003 ∧ c ≠ 0x00000004) :
    decodeCmd c = .illegal := by
  obtain ⟨h1, h2, h3, h4⟩ := h
  rw [decodeCmd_eq, if_neg h1, if_neg h2, if_neg h3, if_neg h4]

/-! ### The checks in their order (R187) -/

theorem lengthCheck_of_nonceLen_ne {o : OperandRegs} (hk : o.keyLen = 32) (hn : o.nonceLen ≠ 12) :
    lengthCheck o = some .invalidNonceLength := by
  rw [lengthCheck, if_neg (not_not_intro hk), if_pos hn]

theorem cipherCheck_of_lengthCheck {o : OperandRegs} {e : StructuralError} (h : lengthCheck o = some e) :
    cipherCheck o = some e := by
  rw [cipherCheck, h]

theorem cipherCheck_of_bufLen_gt {o : OperandRegs} (hk : o.keyLen = 32) (hn : o.nonceLen = 12) (hl : maxCipherLen < bufLen o) :
    cipherCheck o = some .counterOverflow := by
  rw [cipherCheck, lengthCheck_none hk hn]
  exact if_pos hl

/-- The checks on the lengths come first in all three commands, so each of them reports what those find, whatever the length and
the place of the buffer. -/
theorem exec_wr_cmd_of_lengthCheck {c : Word} {s : State} {e : StructuralError}
    (hc : c = 0x00000001 ∨ c = 0x00000002 ∨ c = 0x00000003) (h : lengthCheck s.opd = some e) :
    exec (.wr 0x00 c) s = .next (raiseError e s) := by
  obtain rfl | rfl | rfl := hc
  · rw [exec_wr_cmd_of_instr (i := .encrypt) rfl, exec_encrypt, cipherCheck_of_lengthCheck h]
  · rw [exec_wr_cmd_of_instr (i := .tag) rfl, exec_tag, h]
  · rw [exec_wr_cmd_of_instr (i := .verify) rfl, exec_verify, h]

/-- ENCRYPT alone bounds the length of the buffer (R183). -/
theorem exec_wr_encrypt_of_bufLen_gt {s : State} (hk : s.opd.keyLen = 32) (hn : s.opd.nonceLen = 12)
    (hl : maxCipherLen < bufLen s.opd) : exec (.wr 0x00 0x00000001) s = .next (raiseError .counterOverflow s) := by
  rw [exec_wr_cmd_of_instr (i := .encrypt) rfl, exec_encrypt, cipherCheck_of_bufLen_gt hk hn hl]

end Sys2Proof.Machine

/-- Settles O15: the outcome of an error is a STATUS word with only ERR and the code set. -/
theorem raiseEffect : Obligations.RaiseEffect :=
  fun e s => raiseError_eq_of_status (statusWord_err_eq_add (errorCode e)) s

/-- Settles O16: no word without an instruction reaches a check, and a check is reached only when those before it pass. -/
theorem errorPriority : Obligations.ErrorPriority := by
  refine fun c s => ⟨fun hc => ?_, fun hc hk => ?_, fun hc hk hn => ?_, fun hc hk hn hl => ?_⟩
  · have noInstr : (decodeCmd c).instr? = none := (decodeCmd c).instr?_eq_none_iff.2 (decodeCmd_eq_illegal hc)
    exact (exec_wr_cmd_of_no_instr noInstr s).trans (next_raiseError_of_status (outcomeStatus_error .illegalCommand) s)
  · exact (exec_wr_cmd_of_lengthCheck hc (lengthCheck_of_keyLen_ne hk)).trans
      (next_raiseError_of_status outcomeStatus_invalidKeyLength s)
  · exact (exec_wr_cmd_of_lengthCheck hc (lengthCheck_of_nonceLen_ne hk hn)).trans
      (next_raiseError_of_status (outcomeStatus_error .invalidNonceLength) s)
  · subst hc
    exact (exec_wr_encrypt_of_bufLen_gt hk hn hl).trans
      (next_raiseError_of_status (outcomeStatus_error .counterOverflow) s)

end

section
/-! Reset: obligation O23. -/

open Sys2Proof Sys2Proof.Machine

namespace Sys2Proof.Machine

/-- The whole of reset as one record: every register and all internal state 0, the rest as it was (R42, R210). -/
theorem hardwareReset_eq (s : State) :
    hardwareReset s =
      { s with status := 0, tagOut := Vector.replicate 4 0, opd := OperandRegs.zero, eng := Engine.zero } := rfl

/-- A step that takes a waiting reset answers what CLEAR answers on the state with that input taken (R210). -/
theorem step_reset_eq_exec_clear {s : State} {rest : List Input} (h : s.pending = .reset :: rest) :
    step s = exec .clear { s with pending := rest } :=
  (step_reset h).trans (exec_clear _).symm

end Sys2Proof.Machine

/-- Settles O23: the step on reset is `hardwareReset` of the state with the input taken, which is also all that CLEAR does. -/
theorem resetEffect : Obligations.ResetEffect := by
  refine fun s rest h => ⟨?_, step_reset_eq_exec_clear h⟩
  rw [step_reset h, hardwareReset_eq]

end

section
/-! The encoder and the decoder are inverse on the canonical encodings: obligations O1 and O2. -/

open Sys2Proof Sys2Proof.Machine

namespace Sys2Proof

/-- The check of a bus transaction in terms of its fields (R71). -/
theorem busWellFormed_eq (t : Transaction) : busWellFormed t = (busWe t || busWdata t == 0) := rfl

theorem encode_wellFormed (i : Instr) : (encode i).wellFormed = true := by
  cases i with
  | wr o v =>
    show busWellFormed (busWord 1 o v) = true
    simp [busWellFormed_eq]
  | rd o =>
    show busWellFormed (busWord 0 o 0) = true
    simp [busWellFormed_eq]
  | encrypt | tag | verify | clear => decide

/-- Decoding reads the three fields of the assembled transaction back. -/
theorem decode_encode (i : Instr) : decode (encode i) = some i := by
  cases i with
  | wr o v => simp [encode, decode, decodeBus]
  | rd o => simp [encode, decode, decodeBus]
  | encrypt | tag | verify | clear => decide

/-- A canonical transaction is its three fields, those of a read with wdata 0 (R71). -/
theorem encode_decodeBus {t : Transaction} (h : busWellFormed t = true) : encode (decodeBus t) = .bus t := by
  have fields := busWord_fields t
  cases hwe : busWe t with rw [hwe] at fields
  | true =>
    rw [decodeBus, if_pos hwe]
    exact congrArg Encoded.bus fields
  | false =>
    have hdata : busWdata t = 0 := by simpa [busWellFormed_eq, hwe] using h
    rw [hdata] at fields
    rw [decodeBus, if_neg (by simp [hwe])]
    exact congrArg Encoded.bus fields

/-- The word a command decodes from is the one it encodes to (R73). -/
theorem encode_of_decodeCmd {c : Word} {i : Instr} (h : (decodeCmd c).instr? = some i) : encode i = .cmd c := by
  rw [decodeCmd_eq] at h
  split_ifs at h <;> cases h <;> subst c <;> rfl

end Sys2Proof

/-- Settles O1: by the two formats; a bus transaction is its fields, and a command word is compared whole. -/
theorem decodeAndEncodeAgree : Obligations.DecodeAndEncodeAgree := by
  refine ⟨fun i => ⟨encode_wellFormed i, decode_encode i⟩, fun e i hwf hdec => ?_⟩
  cases e with
  | bus t =>
    obtain rfl : decodeBus t = i := Option.some.inj hdec
    exact encode_decodeBus hwf
  | cmd c => exact encode_of_decodeCmd hdec

/-- Settles O2: the eleven words are computed. -/
theorem tableWordsDecode : Obligations.TableWordsDecode := by
  unfold Obligations.TableWordsDecode
  decide

end

section
/-! What one instruction and one step can do, said once, and the whole-machine rules that follow: obligations O13, O14, O19, O20,
O58, O59 and O60. -/

open Sys2Proof Sys2Proof.Machine

namespace Sys2Proof.Machine

/-! ### The fields of STATUS (R28), checked over all fields' values -/

@[simp] theorem statusDone_statusWord : ∀ (done err vok : Bool) (code : BitVec 4),
    statusDone (statusWord done err vok code) = done := by decide

@[simp] theorem statusErr_statusWord : ∀ (done err vok : Bool) (code : BitVec 4),
    statusErr (statusWord done err vok code) = err := by decide

@[simp] theorem statusVok_statusWord : ∀ (done err vok : Bool) (code : BitVec 4),
    statusVok (statusWord done err vok code) = vok := by decide

@[simp] theorem statusEcode_statusWord : ∀ (done err vok : Bool) (code : BitVec 4),
    statusEcode (statusWord done err vok code) = code := by decide

theorem statusWord_reserved : ∀ (done err vok : Bool) (code : BitVec 4),
    (statusWord done err vok code).extractLsb' 3 5 = 0 ∧ (statusWord done err vok code).extractLsb' 12 20 = 0 := by decide

theorem errorCode_bounds (e : StructuralError) : 1 ≤ (errorCode e).toNat ∧ (errorCode e).toNat ≤ 4 := by
  cases e <;> decide

/-! ### What an instruction can do -/

/-- The instruction starts the command of a decoded word: it is that command, or a write to CMD of a word that decodes so (R27,
R168). -/
def Starts (i : Instr) (w : CmdWord) : Prop := w.instr? = some i ∨ ∃ c, i = .wr 0x00 c ∧ decodeCmd c = w

/-- The states in which the command of a decoded word can end: with an outcome of that word and DMEM as it was, or, for an ENCRYPT
that passed its checks on a populated buffer, with the transformed DMEM. -/
inductive CommandEnd (w : CmdWord) (s : State) : State → Prop where
  | keepsMemory {oc : CommandOutcome} : oc.EndOf w → CommandEnd w s (finish oc s)
  | encrypted {m : Memory} : w = .encrypt → cipherCheck s.opd = none → bufferPopulated s.populated s.opd = true →
      m = cipherMemory s.opd s.dmem → CommandEnd w s (finish .encrypted (setDmem m s))

/-- `finish` after a change of DMEM, as one record. -/
theorem finish_setDmem (oc : CommandOutcome) (m : Memory) (s : State) :
    finish oc (setDmem m s) =
      { s with eng := Engine.zero, opd := OperandRegs.zero, status := outcomeStatus oc, tagOut := outcomeTagOut oc,
               dmem := m } := rfl

/-- The work of TAG and VERIFY leaves nothing behind but the outcome (R169). -/
theorem finish_tagWork_eq_finish (oc : CommandOutcome) (s : State) : finish oc (tagWork s.opd s) = finish oc s :=
  finish_tagWork oc s

theorem CommandEnd.of_command_instr {w : CmdWord} {i : Instr} {s t : State} (hi : w.instr? = some i)
    (h : exec i s = .next t) : CommandEnd w s t := by
  cases w with cases hi
  | encrypt =>
    have h : execEncrypt s = .next t := h
    obtain ⟨e, -, rfl⟩ | ⟨hc, hp, rfl⟩ := guardedCommand_next h
    · exact .keepsMemory (oc := .error e) nofun
    · rw [finish_encryptWork, ← finish_setDmem]
      exact .encrypted rfl hc hp rfl
  | tag =>
    have h : execTag s = .next t := h
    obtain ⟨e, -, rfl⟩ | ⟨-, -, rfl⟩ := guardedCommand_next h
    · exact .keepsMemory (oc := .error e) nofun
    · rw [finish_tagWork_eq_finish]
      exact .keepsMemory rfl
  | verify =>
    have h : execVerify s = .next t := h
    obtain ⟨e, -, rfl⟩ | ⟨-, -, rfl⟩ := guardedCommand_next h
    · exact .keepsMemory (oc := .error e) nofun
    · rw [finish_tagWork_eq_finish]
      exact .keepsMemory rfl
  | clear =>
    obtain rfl := Host.Outcome.next.inj h
    exact .keepsMemory (oc := .cleared) rfl

theorem CommandEnd.of_command {c : Word} {s t : State} (h : command c s = .next t) : CommandEnd (decodeCmd c) s t := by
  rw [command_eq] at h
  cases hi : (decodeCmd c).instr? with rw [hi] at h
  | some i => exact .of_command_instr hi h
  | none =>
    obtain rfl := Host.Outcome.next.inj h
    have illegal := (decodeCmd c).instr?_eq_none_iff.1 hi
    exact .keepsMemory (oc := .error .illegalCommand) (by simp [CommandOutcome.EndOf, illegal])

/-- Every command that answers next ends in one of these states. -/
theorem CommandEnd.of_exec {i : Instr} {w : CmdWord} {s t : State} (hi : Starts i w) (h : exec i s = .next t) :
    CommandEnd w s t := by
  obtain hi | ⟨c, rfl, rfl⟩ := hi
  · exact .of_command_instr hi h
  · exact .of_command ((exec_wr_cmd c s).symm.trans h)

/-- An instruction that answers next replaces the operand registers, returns a value, or ends a command. -/
theorem exec_next {i : Instr} {s t : State} (h : exec i s = .next t) :
    (∃ o, t = setOpd o s) ∨ (∃ v, t = respond v s) ∨ ∃ w, Starts i w ∧ CommandEnd w s t := by
  have ofStart {w : CmdWord} (hi : Starts i w) : ∃ w, Starts i w ∧ CommandEnd w s t := ⟨w, hi, .of_exec hi h⟩
  cases i with
  | wr o v =>
    by_cases ho : o = 0x00
    · subst ho
      exact .inr (.inr (ofStart (.inr ⟨v, rfl, rfl⟩)))
    · exact .inl ⟨_, exec_wr_other_next ho h⟩
  | rd o => exact .inr (.inl ⟨_, exec_rd_next h⟩)
  | encrypt => exact .inr (.inr (ofStart (w := .encrypt) (.inl rfl)))
  | tag => exact .inr (.inr (ofStart (w := .tag) (.inl rfl)))
  | verify => exact .inr (.inr (ofStart (w := .verify) (.inl rfl)))
  | clear => exact .inr (.inr (ofStart (w := .clear) (.inl rfl)))

/-- ENCRYPT is started by the command or by the word 1 (R73). -/
theorem eq_of_starts_encrypt {i : Instr} (h : Starts i .encrypt) : i = .encrypt ∨ i = .wr 0x00 0x00000001 := by
  obtain h | ⟨c, rfl, hc⟩ := h
  · exact .inl (Option.some.inj h).symm
  · have hword : encode .encrypt = .cmd c := encode_of_decodeCmd (by rw [hc]; rfl)
    cases hword
    exact .inr rfl

/-! ### What a command leaves -/

section
variable {w : CmdWord} {s t : State}

theorem CommandEnd.opd_eq (h : CommandEnd w s t) : t.opd = OperandRegs.zero := by cases h <;> rfl

theorem CommandEnd.eng_eq (h : CommandEnd w s t) : t.eng = Engine.zero := by cases h <;> rfl

theorem CommandEnd.populated_eq (h : CommandEnd w s t) : t.populated = s.populated := by cases h <;> rfl

theorem CommandEnd.pending_eq (h : CommandEnd w s t) : t.pending = s.pending := by cases h <;> rfl

theorem CommandEnd.responses_eq (h : CommandEnd w s t) : t.responses = s.responses := by cases h <;> rfl

theorem CommandEnd.tagOut_eq (h : CommandEnd w s t) (hw : w ≠ .tag) : t.tagOut = Vector.replicate 4 0 := by
  cases h with
  | @keepsMemory oc hoc => exact not_imp_comm.1 hoc.eq_tag_of_tagOut_ne hw
  | encrypted => rfl

/-- A command that changes DMEM is an ENCRYPT with STATUS 1, and it changes bytes of its buffer only (R59). -/
theorem CommandEnd.of_memRead_ne (h : CommandEnd w s t) {a : Addr} (hne : memRead t.dmem a ≠ memRead s.dmem a) :
    w = .encrypt ∧ t.status = 0x00000001 ∧ ∃ k, k < bufLen s.opd ∧ dmemAddr s.opd k = a := by
  cases h with
  | keepsMemory => exact absurd rfl hne
  | encrypted hw _ _ hm =>
    subst hm
    refine ⟨hw, outcomeStatus_encrypted, ?_⟩
    by_contra outside
    push Not at outside
    exact hne (cipherMemory_outside s.opd s.dmem a outside)

end

/-! ### What a step can do -/

/-- The states in which a step can end, by the oldest waiting input. -/
inductive StepEnd (s : State) : State → Prop where
  | idle : s.pending = [] → StepEnd s s
  | bus {tr : Transaction} {rest : List Input} {t : State} : s.pending = .bus tr :: rest →
      exec (decodeBus tr) { s with pending := rest } = .next t → StepEnd s t
  | reset {rest : List Input} : s.pending = .reset :: rest → StepEnd s (hardwareReset { s with pending := rest })
  | store {a : Addr} {v : Byte} {rest : List Input} : s.pending = .store a v :: rest →
      StepEnd s (setDmem (memWrite s.dmem a v) { s with pending := rest })

theorem StepEnd.of_step {s t : State} (h : step s = .next t) : StepEnd s t := by
  cases hp : s.pending with
  | nil =>
    obtain rfl := Host.Outcome.next.inj ((step_idle hp).symm.trans h)
    exact .idle hp
  | cons x rest =>
    cases x with
    | bus tr => exact .bus hp ((step_bus hp).symm.trans h)
    | reset =>
      obtain rfl := Host.Outcome.next.inj ((step_reset hp).symm.trans h)
      exact .reset hp
    | store a v =>
      obtain ⟨-, rfl⟩ := hostStore_next ((step_store hp).symm.trans h)
      exact .store hp

/-! ### The invariant -/

theorem State.Inv.withPending {s : State} (h : s.Inv) (rest : List Input) : State.Inv { s with pending := rest } :=
  ⟨h.memory, h.internalZero, h.status, h.tagOut⟩

theorem State.Inv.setOpd {s : State} (h : s.Inv) (o : OperandRegs) : (setOpd o s).Inv :=
  ⟨h.memory, h.internalZero, h.status, h.tagOut⟩

theorem State.Inv.respond {s : State} (h : s.Inv) (v : Word) : (respond v s).Inv :=
  ⟨h.memory, h.internalZero, h.status, h.tagOut⟩

theorem State.Inv.setDmem {s : State} (h : s.Inv) {m : Memory} (hm : Memory.wf m = true) : (setDmem m s).Inv :=
  ⟨hm, h.internalZero, h.status, h.tagOut⟩

/-- The end of a command asks nothing of the registers it overwrites. -/
theorem inv_finish {s : State} (hm : Memory.wf s.dmem = true) (oc : CommandOutcome) : (finish oc s).Inv :=
  ⟨hm, finish_eng oc s, outcomeStatus_legal oc, outcomeTagOut_ne_zero⟩

theorem inv_hardwareReset {s : State} (hm : Memory.wf s.dmem = true) : (hardwareReset s).Inv := by
  rw [← finish_cleared_eq_hardwareReset]
  exact inv_finish hm .cleared

theorem CommandEnd.inv {w : CmdWord} {s t : State} (h : CommandEnd w s t) (hm : Memory.wf s.dmem = true) : t.Inv := by
  cases h with
  | @keepsMemory oc => exact inv_finish hm oc
  | encrypted _ _ _ hm' => exact inv_finish (hm' ▸ cipherMemory_wf s.opd hm) .encrypted

theorem exec_inv {i : Instr} {s t : State} (hs : s.Inv) (h : exec i s = .next t) : t.Inv := by
  obtain ⟨o, rfl⟩ | ⟨v, rfl⟩ | ⟨w, -, hend⟩ := exec_next h
  · exact hs.setOpd o
  · exact hs.respond v
  · exact hend.inv hs.memory

/-! ### The two ends of the host port -/

/-- `t` differs from `s` on the port at most by inputs taken from the front and values added at the back. -/
def PortFollows (s t : State) : Prop :=
  t.populated = s.populated ∧ t.pending <:+ s.pending ∧ s.responses <+: t.responses

theorem PortFollows.refl (s : State) : PortFollows s s := ⟨rfl, List.suffix_rfl, List.prefix_rfl⟩

theorem PortFollows.trans {s t u : State} : PortFollows s t → PortFollows t u → PortFollows s u
  | ⟨hpop, hpend, hresp⟩, ⟨hpop', hpend', hresp'⟩ => ⟨hpop'.trans hpop, hpend'.trans hpend, hresp.trans hresp'⟩

theorem portFollows_exec {i : Instr} {s t : State} (h : exec i s = .next t) : PortFollows s t := by
  obtain ⟨o, rfl⟩ | ⟨v, rfl⟩ | ⟨w, -, hend⟩ := exec_next h
  · exact .refl s
  · exact ⟨rfl, List.suffix_rfl, List.prefix_append _ _⟩
  · exact ⟨hend.populated_eq, hend.pending_eq ▸ List.suffix_rfl, hend.responses_eq ▸ List.prefix_rfl⟩

/-- Taking an input from the front. -/
theorem portFollows_take {s : State} {x : Input} {rest : List Input} (h : s.pending = x :: rest) :
    PortFollows s { s with pending := rest } :=
  ⟨rfl, h ▸ List.suffix_cons x rest, List.prefix_rfl⟩

theorem portFollows_step {s t : State} (h : step s = .next t) : PortFollows s t := by
  cases StepEnd.of_step h with
  | idle => exact .refl s
  | bus hp he => exact (portFollows_take hp).trans (portFollows_exec he)
  | reset hp => exact portFollows_take hp
  | store hp => exact portFollows_take hp

end Sys2Proof.Machine

/-- Settles O58: each input keeps the invariant; a command overwrites all that the invariant constrains but DMEM, and ENCRYPT and the
host store write DMEM in its form. -/
theorem stepKeepsTheInvariant : Obligations.StepKeepsTheInvariant := by
  intro s t hs h
  cases StepEnd.of_step h with
  | idle => exact hs
  | bus _ he => exact exec_inv (hs.withPending _) he
  | reset => exact inv_hardwareReset hs.memory
  | store => exact (hs.withPending _).setDmem (memWrite_wf _ _ hs.memory)

/-- Settles O59: the reset state lists nothing in DMEM and is reset's result. -/
theorem resetMeetsTheInvariant : Obligations.ResetMeetsTheInvariant :=
  inv_hardwareReset (s := State.reset) rfl

/-- Settles O60, by induction along the run. -/
theorem runsConsumeInputsInOrder : Obligations.RunsConsumeInputsInOrder := by
  intro s t h
  induction h with
  | refl => exact PortFollows.refl s
  | tail _ hstep ih => exact PortFollows.trans ih (portFollows_step hstep)

/-- Settles O14: the fields read back what was put in, and the outcomes' values are computed. -/
theorem statusEncodesTheOutcome : Obligations.StatusEncodesTheOutcome :=
  fun done err vok code => ⟨statusDone_statusWord done err vok code, statusErr_statusWord done err vok code,
    statusVok_statusWord done err vok code, statusEcode_statusWord done err vok code,
    (statusWord_reserved done err vok code).1, (statusWord_reserved done err vok code).2, outcomeStatus_tagged,
    outcomeStatus_encrypted, outcomeStatus_verified true, outcomeStatus_verified false, outcomeStatus_error _,
    outcomeStatus_error _, outcomeStatus_error _, outcomeStatus_error _, outcomeStatus_cleared⟩

/-- Settles O13: one clause for each kind of outcome, whose command fixes the word. -/
theorem commandsEndInThreeWays : Obligations.CommandsEndInThreeWays := by
  intro c s t h
  obtain ⟨oc, u, hoc, rfl⟩ := exec_wr_cmd_finishes h
  rw [finish_status]
  have word {i : Instr} (hi : (decodeCmd c).instr? = some i) : encode i = .cmd c := encode_of_decodeCmd hi
  cases oc with simp only [CommandOutcome.EndOf] at hoc
  | encrypted =>
    obtain rfl := Encoded.cmd.inj (word (i := .encrypt) (by rw [hoc]; rfl))
    simp [outcomeStatus]
  | tagged tag =>
    obtain rfl := Encoded.cmd.inj (word (i := .tag) (by rw [hoc]; rfl))
    simp [outcomeStatus]
  | verified ok =>
    obtain rfl := Encoded.cmd.inj (word (i := .verify) (by rw [hoc]; rfl))
    simp [outcomeStatus]
  | error e =>
    have hclear : c ≠ 4#32 := fun hc => hoc (by rw [hc]; exact decodeCmd_four)
    simp [outcomeStatus, hclear, errorCode_bounds e]
  | cleared =>
    obtain rfl := Encoded.cmd.inj (word (i := .clear) (by rw [hoc]; rfl))
    exact ⟨.inr (.inr ⟨outcomeStatus_cleared, rfl⟩), by decide⟩

/-- Settles O19: what each of the four leaves, whatever its outcome; only ENCRYPT, which then has no error, writes DMEM. -/
theorem frameOfCommands : Obligations.FrameOfCommands := by
  intro i s t hi h
  obtain ⟨w, hw⟩ : ∃ w : CmdWord, w.instr? = some i := by
    obtain rfl | rfl | rfl | rfl := hi
    · exact ⟨.encrypt, rfl⟩
    · exact ⟨.tag, rfl⟩
    · exact ⟨.verify, rfl⟩
    · exact ⟨.clear, rfl⟩
  have hend : CommandEnd w s t := .of_command_instr hw h
  refine ⟨hend.opd_eq, hend.eng_eq, fun hne => hend.tagOut_eq ?_, hend.populated_eq, hend.pending_eq, hend.responses_eq,
    fun hne a => ?_, fun herr a => ?_, fun _ a outside => ?_⟩
  · rintro rfl
    exact hne (Option.some.inj hw).symm
  · by_contra changed
    obtain ⟨rfl, -, -⟩ := hend.of_memRead_ne changed
    exact hne (Option.some.inj hw).symm
  · by_contra changed
    obtain ⟨-, hstatus, -⟩ := hend.of_memRead_ne changed
    rw [hstatus] at herr
    exact absurd herr (by decide)
  · by_contra changed
    obtain ⟨-, -, k, hk, hka⟩ := hend.of_memRead_ne changed
    exact outside k hk hka

/-- Settles O20: neither the operand registers nor the values returned are DMEM, and of the commands only ENCRYPT writes it. -/
theorem onlyEncryptWritesMemory : Obligations.OnlyEncryptWritesMemory := by
  intro i s t a h changed
  obtain ⟨o, rfl⟩ | ⟨v, rfl⟩ | ⟨w, hi, hend⟩ := exec_next h
  · exact absurd rfl changed
  · exact absurd rfl changed
  · obtain ⟨rfl, hstatus, hbuf⟩ := hend.of_memRead_ne changed
    exact ⟨eq_of_starts_encrypt hi, hstatus, hbuf⟩

end

section
/-! What the host's accesses can show of the key and the internal state: obligation O9. -/

open Sys2Proof Sys2Proof.Machine

namespace Sys2Proof.Machine

theorem sameButSecrets.responses_eq {s t : State} (h : sameButSecrets s t) : t.responses = s.responses := by
  rw [h]

theorem sameButSecrets.pending_eq {s t : State} (h : sameButSecrets s t) : t.pending = s.pending := by
  rw [h]

/-- The state with other key registers and other internal state. -/
def State.withSecrets (e : Engine) (k : Vector Word 8) (s : State) : State := { s with eng := e, opd := { s.opd with key := k } }

theorem sameButSecrets_withSecrets (e : Engine) (k : Vector Word 8) (s : State) : sameButSecrets s (s.withSecrets e k) := rfl

/-- Differing at most in the secrets is having them replaced. -/
theorem sameButSecrets_iff {s t : State} : sameButSecrets s t ↔ ∃ e k, t = s.withSecrets e k :=
  ⟨fun h => ⟨t.eng, t.opd.key, h⟩, by rintro ⟨e, k, rfl⟩; exact sameButSecrets_withSecrets e k s⟩

section
variable (e : Engine) (k : Vector Word 8) (s : State)

/-- The register file reads alike: KEY0 to KEY7 read 0 and the internal state has no offset (R33, R38). -/
theorem readReg_withSecrets (r : Reg) : readReg r (s.withSecrets e k) = readReg r s := by cases r <;> rfl

/-- A write reaches one register, a key register or another. -/
theorem sameButSecrets_write (r : Reg) (v : Word) :
    sameButSecrets (setOpd (writeOperand r v s.opd) s)
      (setOpd (writeOperand r v (s.withSecrets e k).opd) (s.withSecrets e k)) := by cases r <;> rfl

/-- The end of a command overwrites the secrets (R169). -/
theorem finish_withSecrets (oc : CommandOutcome) : finish oc (s.withSecrets e k) = finish oc s := rfl

end

/-- A write to CMD of any word but 1, 2 and 3 ends at once, with an outcome that depends on the word only (R73, R74). -/
theorem command_of_no_transform {c : Word} (h1 : c ≠ 0x00000001) (h2 : c ≠ 0x00000002) (h3 : c ≠ 0x00000003) :
    ∃ oc, ∀ s, command c s = .next (finish oc s) := by
  by_cases h4 : c = 0x00000004
  · subst h4
    exact ⟨.cleared, fun _ => rfl⟩
  · have illegal : decodeCmd c = .illegal := decodeCmd_eq_illegal ⟨h1, h2, h3, h4⟩
    exact ⟨.error .illegalCommand, fun s => by rw [command, illegal]; rfl⟩

/-- A bus transaction that starts no transform does not decode to a write of 1, 2 or 3 to CMD. -/
theorem ne_of_startsNoTransform {tr : Transaction} (h : (Input.bus tr).startsNoTransform = true) {c : Word}
    (hd : decodeBus tr = .wr 0x00 c) : c ≠ 0x00000001 ∧ c ≠ 0x00000002 ∧ c ≠ 0x00000003 := by
  unfold decodeBus at hd
  split at hd
  · obtain ⟨ho, rfl⟩ := Instr.wr.inj hd
    simp_all [Input.startsNoTransform]
  · cases hd

/-- A transaction is a write or a read (R75). -/
theorem decodeBus_eq_wr_or_rd (tr : Transaction) : (∃ o v, decodeBus tr = .wr o v) ∨ ∃ o, decodeBus tr = .rd o := by
  unfold decodeBus
  split
  · exact .inl ⟨_, _, rfl⟩
  · exact .inr ⟨_, rfl⟩

theorem exec_wr_sameButSecrets {o : Offset} {v : Word} {s t s' : State} (hst : sameButSecrets s t)
    (hv : o = 0x00 → v ≠ 0x00000001 ∧ v ≠ 0x00000002 ∧ v ≠ 0x00000003) (h : exec (.wr o v) s = .next s') :
    ∃ t', exec (.wr o v) t = .next t' ∧ sameButSecrets s' t' := by
  obtain ⟨e, k, rfl⟩ := sameButSecrets_iff.1 hst
  by_cases ho : o = 0x00
  · subst ho
    obtain ⟨h1, h2, h3⟩ := hv rfl
    obtain ⟨oc, hoc⟩ := command_of_no_transform h1 h2 h3
    rw [exec_wr_cmd, hoc] at h ⊢
    obtain rfl := Host.Outcome.next.inj h
    exact ⟨_, rfl, finish_withSecrets e k s oc ▸ rfl⟩
  · have hreg : regAt o ≠ .cmd := mt (regAt_eq_cmd_iff o).1 ho
    rw [exec_wr_other_next ho h]
    exact ⟨_, exec_wr_other hreg v _, sameButSecrets_write e k s (regAt o) v⟩

theorem exec_rd_sameButSecrets {o : Offset} {s t s' : State} (hst : sameButSecrets s t) (h : exec (.rd o) s = .next s') :
    ∃ t', exec (.rd o) t = .next t' ∧ sameButSecrets s' t' := by
  obtain ⟨e, k, rfl⟩ := sameButSecrets_iff.1 hst
  rw [exec_rd_next h]
  refine ⟨_, exec_rd o _, ?_⟩
  rw [readReg_withSecrets]
  rfl

theorem sameButSecrets.withPending {s t : State} (h : sameButSecrets s t) (rest : List Input) :
    sameButSecrets { s with pending := rest } { t with pending := rest } := by
  obtain ⟨e, k, rfl⟩ := sameButSecrets_iff.1 h
  rfl

theorem hostStore_sameButSecrets {a : Addr} {v : Byte} {s t s' : State} (hst : sameButSecrets s t)
    (h : hostStore a v s = .next s') : ∃ t', hostStore a v t = .next t' ∧ sameButSecrets s' t' := by
  obtain ⟨e, k, rfl⟩ := sameButSecrets_iff.1 hst
  obtain ⟨hvalid, rfl⟩ := hostStore_next h
  exact ⟨_, if_pos hvalid, rfl⟩

theorem step_sameButSecrets {s t s' : State} (hst : sameButSecrets s t)
    (hin : ∀ x ∈ s.pending.head?, x.startsNoTransform = true) (h : step s = .next s') :
    ∃ t', step t = .next t' ∧ sameButSecrets s' t' := by
  cases hp : s.pending with
  | nil =>
    rw [step_idle hp] at h
    obtain rfl := Host.Outcome.next.inj h
    exact ⟨t, step_idle (hst.pending_eq.trans hp), hst⟩
  | cons x rest =>
    have hrest := hst.withPending rest
    have htp := hst.pending_eq.trans hp
    have hx : x.startsNoTransform = true := hin x (by rw [hp]; rfl)
    cases x with
    | bus tr =>
      rw [step_bus hp] at h
      rw [step_bus htp]
      obtain ⟨o, v, hd⟩ | ⟨o, hd⟩ := decodeBus_eq_wr_or_rd tr
      · rw [hd] at h ⊢
        exact exec_wr_sameButSecrets hrest (fun ho => ne_of_startsNoTransform hx (ho ▸ hd)) h
      · rw [hd] at h ⊢
        exact exec_rd_sameButSecrets hrest h
    | reset =>
      rw [step_reset hp] at h
      obtain rfl := Host.Outcome.next.inj h
      refine ⟨_, step_reset htp, ?_⟩
      obtain ⟨e, k, hk⟩ := sameButSecrets_iff.1 hrest
      rw [hk]
      rfl
    | store a v =>
      rw [step_store hp] at h
      rw [step_store htp]
      exact hostStore_sameButSecrets hrest h

end Sys2Proof.Machine

/-- Settles O9: the register file reads alike, a write stores what it stores, and what ends a command without a transform overwrites
the secrets; so both states answer, again alike but for the secrets. -/
theorem secretsStayHidden : Obligations.SecretsStayHidden := by
  intro s t s' hst hin h
  obtain ⟨t', ht', hsame⟩ := step_sameButSecrets hst hin h
  exact ⟨t', ht', hsame, hsame.responses_eq⟩

end

section
/-! The steps that run a decoded instruction, the words that start a command, and when an instruction is refused: obligations O4,
O11 and O21. -/

open Sys2Proof Sys2Proof.Machine

namespace Sys2Proof.Machine

/-! ### Presenting an instruction (R70, R73) -/

/-- A command word as a full transaction decodes to the write to CMD that carries it. -/
theorem decodeBus_cmd_transaction (c : Word) : decodeBus (Encoded.cmd c).transaction = .wr 0x00 c := by
  simp [Encoded.transaction, decodeBus]

/-- The transaction that presents an encoded instruction runs that instruction. -/
theorem exec_decodeBus_transaction {e : Encoded} {i : Instr} (h : decode e = some i) (s : State) :
    exec (decodeBus e.transaction) s = exec i s := by
  cases e with
  | bus t =>
    obtain rfl : decodeBus t = i := Option.some.inj h
    rfl
  | cmd c => rw [decodeBus_cmd_transaction, exec_wr_cmd_of_instr h]

theorem step_transaction {s : State} {e : Encoded} {i : Instr} {rest : List Input}
    (hp : s.pending = .bus e.transaction :: rest) (h : decode e = some i) : step s = exec i { s with pending := rest } := by
  rw [step_bus hp, exec_decodeBus_transaction h]

/-- The word of the opcode table is placed in front, and taking it gives the state back. -/
theorem step_withFetchWord {s : State} {nbits w : Nat} {i : Instr} (h : decodeTableWord nbits w = some i) :
    step (s.withFetchWord nbits w) = exec i s := by
  obtain ⟨e, he, hi⟩ := Option.bind_eq_some_iff.1 h
  have placed : s.withFetchWord nbits w = { s with pending := .bus e.transaction :: s.pending } := by
    rw [State.withFetchWord, he]
  rw [placed, step_transaction rfl hi]

/-! ### Refusal (U6, U7) -/

theorem lengthCheck_eq_none_iff {o : OperandRegs} : lengthCheck o = none ↔ o.keyLen = 32 ∧ o.nonceLen = 12 := by
  unfold lengthCheck
  split_ifs <;> simp_all

theorem cipherCheck_eq_none_iff {o : OperandRegs} :
    cipherCheck o = none ↔ lengthCheck o = none ∧ bufLen o ≤ 274877906880 := by
  unfold cipherCheck
  cases lengthCheck o with
  | some e => simp
  | none => simp [maxCipherLen]

theorem bufferPopulated_eq_false_iff {regions : List Region} {o : OperandRegs} :
    bufferPopulated regions o = false ↔ ∃ k, k < bufLen o ∧ dmemValid regions (dmemAddr o k) = false := by
  simp [← Bool.not_eq_true, bufferPopulated_iff]

theorem guardedCommand_eq_refused_iff {check : Option StructuralError} {work : State → State}
    {outcome : State → CommandOutcome} {s : State} {r : Refusal} :
    guardedCommand check work outcome s = .refused r ↔
      r = .bufferNotPopulated ∧ check = none ∧ bufferPopulated s.populated s.opd = false := by
  constructor
  · intro h
    obtain ⟨hcheck, hpop, hr⟩ := guardedCommand_refused h
    exact ⟨hr, hcheck, hpop⟩
  · rintro ⟨rfl, rfl, hpop⟩
    exact guardedCommand_refuse hpop

/-- The check that a transform makes before its work. -/
def transformCheck : Instr → OperandRegs → Option StructuralError
  | .encrypt, o => cipherCheck o
  | _, o => lengthCheck o

theorem transformCheck_eq_none_iff {i : Instr} {o : OperandRegs} :
    transformCheck i o = none ↔ o.keyLen = 32 ∧ o.nonceLen = 12 ∧ (i = .encrypt → bufLen o ≤ 274877906880) := by
  cases i with
  | encrypt => simp [transformCheck, cipherCheck_eq_none_iff, lengthCheck_eq_none_iff, and_assoc]
  | _ => simp [transformCheck, lengthCheck_eq_none_iff]

/-- ENCRYPT, TAG and VERIFY have one shape (R168, R185). -/
theorem exec_transform_eq_guardedCommand {i : Instr} (hi : i = .encrypt ∨ i = .tag ∨ i = .verify) (s : State) :
    ∃ work outcome, exec i s = guardedCommand (transformCheck i s.opd) work outcome s := by
  obtain rfl | rfl | rfl := hi
  · exact ⟨encryptWork s.opd, fun _ => .encrypted, rfl⟩
  · exact ⟨tagWork s.opd, fun t => .tagged t.eng.tagc, rfl⟩
  · exact ⟨tagWork s.opd, fun t => .verified (ctEq t.eng.tagc (tagInBytes s.opd)), rfl⟩

theorem exec_transform_eq_refused_iff {i : Instr} (hi : i = .encrypt ∨ i = .tag ∨ i = .verify) {s : State} {r : Refusal} :
    exec i s = .refused r ↔
      r = .bufferNotPopulated ∧ s.opd.keyLen = 32 ∧ s.opd.nonceLen = 12 ∧ (i = .encrypt → bufLen s.opd ≤ 274877906880) ∧
        ∃ k, k < bufLen s.opd ∧ dmemValid s.populated (dmemAddr s.opd k) = false := by
  obtain ⟨work, outcome, guarded⟩ := exec_transform_eq_guardedCommand hi s
  rw [guarded, guardedCommand_eq_refused_iff, transformCheck_eq_none_iff, bufferPopulated_eq_false_iff, and_assoc, and_assoc]

/-- The transform that an instruction runs, as a command or by the write to CMD of its word. -/
theorem transform_of_refused {i : Instr} {s : State} {r : Refusal} (h : exec i s = .refused r) :
    ∃ j, (j = .encrypt ∨ j = .tag ∨ j = .verify) ∧ (i = j ∨ ∃ c, i = .wr 0x00 c ∧ encode j = .cmd c) := by
  have ofCommand {j : Instr} (hj : exec j s = .refused r) (hw : ∃ w : CmdWord, w.instr? = some j) :
      j = .encrypt ∨ j = .tag ∨ j = .verify := by
    obtain ⟨w, hw⟩ := hw
    cases w with cases hw
    | encrypt => exact .inl rfl
    | tag => exact .inr (.inl rfl)
    | verify => exact .inr (.inr rfl)
    | clear => cases hj
  cases i with
  | wr o v =>
    by_cases ho : o = 0x00
    · subst ho
      rw [exec_wr_cmd, command_eq] at h
      cases hj : (decodeCmd v).instr? with rw [hj] at h
      | some j => exact ⟨j, ofCommand h ⟨_, hj⟩, .inr ⟨v, rfl, encode_of_decodeCmd hj⟩⟩
      | none => cases h
    · rw [exec_wr_other (mt (regAt_eq_cmd_iff o).1 ho)] at h
      cases h
  | rd o => cases h
  | encrypt => exact ⟨.encrypt, .inl rfl, .inl rfl⟩
  | tag => exact ⟨.tag, .inr (.inl rfl), .inl rfl⟩
  | verify => exact ⟨.verify, .inr (.inr rfl), .inl rfl⟩
  | clear => cases h

/-- The premises of a transform, of its command and of the write to CMD that carries its word. -/
theorem exec_eq_refused_iff {i : Instr} {s : State} {r : Refusal}
    (hi : i = .encrypt ∨ i = .tag ∨ i = .verify ∨ i = .wr 0x00 0x00000001 ∨ i = .wr 0x00 0x00000002 ∨
      i = .wr 0x00 0x00000003) :
    exec i s = .refused r ↔
      r = .bufferNotPopulated ∧ s.opd.keyLen = 32 ∧ s.opd.nonceLen = 12 ∧
        (i = .encrypt ∨ i = .wr 0x00 0x00000001 → bufLen s.opd ≤ 274877906880) ∧
        ∃ k, k < bufLen s.opd ∧ dmemValid s.populated (dmemAddr s.opd k) = false := by
  obtain ⟨j, hj, hrun, hencrypt⟩ : ∃ j : Instr, (j = .encrypt ∨ j = .tag ∨ j = .verify) ∧ exec i s = exec j s ∧
      (j = .encrypt ↔ i = .encrypt ∨ i = .wr 0x00 0x00000001) := by
    obtain rfl | rfl | rfl | rfl | rfl | rfl := hi
    · exact ⟨.encrypt, by simp, rfl, by simp⟩
    · exact ⟨.tag, by simp, rfl, by simp⟩
    · exact ⟨.verify, by simp, rfl, by simp⟩
    · exact ⟨.encrypt, by simp, exec_wr_cmd_of_instr rfl s, by simp⟩
    · exact ⟨.tag, by simp, exec_wr_cmd_of_instr rfl s, by simp⟩
    · exact ⟨.verify, by simp, exec_wr_cmd_of_instr rfl s, by simp⟩
  rw [hrun, exec_transform_eq_refused_iff hj, hencrypt]

end Sys2Proof.Machine

/-- Settles O4: a transaction in either encoded form runs its instruction, from the queue as well as placed in front of it. -/
theorem stepRunsTheDecodedInstruction : Obligations.StepRunsTheDecodedInstruction :=
  ⟨fun _ t _ _ hp hi => step_transaction (e := .bus t) hp hi, fun _ c _ _ hp hi => step_transaction (e := .cmd c) hp hi,
    fun _ _ _ _ => step_withFetchWord, fun _ => step_idle⟩

/-- Settles O11: the four words by what they decode to, every other one as in `errorPriority`. -/
theorem commandWordSelectsTheCommand : Obligations.CommandWordSelectsTheCommand :=
  fun c s => ⟨exec_wr_cmd_of_instr rfl s, exec_wr_cmd_of_instr rfl s, exec_wr_cmd_of_instr rfl s, exec_wr_cmd_of_instr rfl s,
    (errorPriority c s).1⟩

/-- Settles O21: only a transform can be refused, and it is when its checks pass and its buffer is not populated. -/
theorem refusedExactlyOnUnpopulatedBuffers : Obligations.RefusedExactlyOnUnpopulatedBuffers := by
  refine fun i s r => ⟨fun h => ?_, fun ⟨hr, hi, hrest⟩ => (exec_eq_refused_iff hi).2 ⟨hr, hrest⟩⟩
  obtain ⟨j, hj, hij⟩ := transform_of_refused h
  have hi : i = .encrypt ∨ i = .tag ∨ i = .verify ∨ i = .wr 0x00 0x00000001 ∨ i = .wr 0x00 0x00000002 ∨
      i = .wr 0x00 0x00000003 := by
    obtain rfl | ⟨c, rfl, hc⟩ := hij
    · tauto
    · obtain rfl | rfl | rfl := hj <;> cases hc <;> simp
  obtain ⟨hr, hrest⟩ := (exec_eq_refused_iff hi).1 h
  exact ⟨hr, hi, hrest⟩

end

section
/-! The registers as the host sees them, and DMEM byte by byte: obligations O8, O10, O26, O27 and O28. -/

open Sys2Proof Sys2Proof.Machine

namespace Sys2Proof.Machine

/-! ### Read after write (R29 to R35) -/

/-- The read-write operand registers: a host read returns what the host wrote. -/
def isReadWrite : Reg → Bool
  | .keyLen | .nonceLen | .bufAddrLo | .bufAddrHi | .bufLenLo | .bufLenHi | .nonce _ | .tagIn _ => true
  | .cmd | .status | .key _ | .tagOut _ | .reserved => false

theorem readReg_write {r : Reg} (h : isReadWrite r = true) (v : Word) (s : State) :
    readReg r (setOpd (writeOperand r v s.opd) s) = v := by
  cases r with
  | keyLen | nonceLen | bufAddrLo | bufAddrHi | bufLenLo | bufLenHi => rfl
  | nonce j => exact Vector.getElem_set_self j.isLt
  | tagIn j => exact Vector.getElem_set_self j.isLt
  | cmd | status | key | tagOut | reserved => cases h

/-- The offsets of the read-write registers in the register map (a check of the 256 offsets). -/
theorem isReadWrite_regAt : ∀ o : Offset,
    o.toNat ∈ [0x08, 0x0C, 0x10, 0x14, 0x18, 0x1C, 0x40, 0x44, 0x48, 0x50, 0x54, 0x58, 0x5C] → isReadWrite (regAt o) = true := by
  decide +kernel

/-- The offsets of the key registers (a check of the 256 offsets). -/
theorem regAt_eq_key : ∀ o : Offset,
    o.toNat ∈ [0x20, 0x24, 0x28, 0x2C, 0x30, 0x34, 0x38, 0x3C] → ∃ j, regAt o = .key j := by
  decide +kernel

/-! ### The frame of a write (R165) -/

/-- The offset of a register (R26); reserved offsets are many, and 0x4C stands for them. -/
def offsetOf : Reg → Offset
  | .cmd => 0x00
  | .status => 0x04
  | .keyLen => 0x08
  | .nonceLen => 0x0C
  | .bufAddrLo => 0x10
  | .bufAddrHi => 0x14
  | .bufLenLo => 0x18
  | .bufLenHi => 0x1C
  | .key j => BitVec.ofNat 8 (0x20 + 4 * j.val)
  | .nonce j => BitVec.ofNat 8 (0x40 + 4 * j.val)
  | .tagIn j => BitVec.ofNat 8 (0x50 + 4 * j.val)
  | .tagOut j => BitVec.ofNat 8 (0x60 + 4 * j.val)
  | .reserved => 0x4C

/-- A register is found at its own offset only (a check of the 256 offsets). -/
theorem eq_offsetOf_regAt : ∀ o : Offset, regAt o ≠ .reserved → o = offsetOf (regAt o) := by
  decide +kernel

theorem regAt_ne_of_ne_offsetOf {o : Offset} {r : Reg} (hr : r ≠ .reserved) (ho : o ≠ offsetOf r) : regAt o ≠ r := by
  rintro rfl
  exact ho (eq_offsetOf_regAt o hr)

section
variable {r : Reg} (v : Word) (o : OperandRegs)

theorem writeOperand_keyLen (h : r ≠ .keyLen) : (writeOperand r v o).keyLen = o.keyLen := by
  cases r with
  | keyLen => exact absurd rfl h
  | _ => rfl

theorem writeOperand_nonceLen (h : r ≠ .nonceLen) : (writeOperand r v o).nonceLen = o.nonceLen := by
  cases r with
  | nonceLen => exact absurd rfl h
  | _ => rfl

theorem writeOperand_bufAddrLo (h : r ≠ .bufAddrLo) : (writeOperand r v o).bufAddrLo = o.bufAddrLo := by
  cases r with
  | bufAddrLo => exact absurd rfl h
  | _ => rfl

theorem writeOperand_bufAddrHi (h : r ≠ .bufAddrHi) : (writeOperand r v o).bufAddrHi = o.bufAddrHi := by
  cases r with
  | bufAddrHi => exact absurd rfl h
  | _ => rfl

theorem writeOperand_bufLenLo (h : r ≠ .bufLenLo) : (writeOperand r v o).bufLenLo = o.bufLenLo := by
  cases r with
  | bufLenLo => exact absurd rfl h
  | _ => rfl

theorem writeOperand_bufLenHi (h : r ≠ .bufLenHi) : (writeOperand r v o).bufLenHi = o.bufLenHi := by
  cases r with
  | bufLenHi => exact absurd rfl h
  | _ => rfl

theorem writeOperand_key {j : Fin 8} (h : r ≠ .key j) : (writeOperand r v o).key[j] = o.key[j] := by
  cases r with
  | key i => exact Vector.getElem_set_ne i.isLt j.isLt fun hij => h (congrArg Reg.key (Fin.ext hij))
  | _ => rfl

theorem writeOperand_nonce {j : Fin 3} (h : r ≠ .nonce j) : (writeOperand r v o).nonce[j] = o.nonce[j] := by
  cases r with
  | nonce i => exact Vector.getElem_set_ne i.isLt j.isLt fun hij => h (congrArg Reg.nonce (Fin.ext hij))
  | _ => rfl

theorem writeOperand_tagIn {j : Fin 4} (h : r ≠ .tagIn j) : (writeOperand r v o).tagIn[j] = o.tagIn[j] := by
  cases r with
  | tagIn i => exact Vector.getElem_set_ne i.isLt j.isLt fun hij => h (congrArg Reg.tagIn (Fin.ext hij))
  | _ => rfl

end

/-! ### Buffer addresses and the host's store -/

/-- BUF_ADDR as a number (R31). -/
theorem bufAddr_toNat (o : OperandRegs) : (bufAddr o).toNat = o.bufAddrHi.toNat * 2 ^ 32 + o.bufAddrLo.toNat := by
  rw [bufAddr, toNat_append_eq_add, Nat.mul_comm]

end Sys2Proof.Machine

/-- Settles O8: a read looks up the register that the write replaced. -/
theorem registersReadBack : Obligations.RegistersReadBack := by
  intro o v s ho
  have hreg : regAt o ≠ .cmd := mt (regAt_eq_cmd_iff o).1 ho
  refine ⟨_, _, exec_wr_other hreg v s, exec_rd o _, fun hrw => ?_, fun hkey => ?_⟩
  · show s.responses ++ [_] = _
    rw [readReg_write (isReadWrite_regAt o hrw)]
  · obtain ⟨j, hj⟩ := regAt_eq_key o hkey
    rw [hj]
    rfl

/-- Settles O10: a write reaches the operand register at its offset, a read the values returned. -/
theorem frameOfRegisterAccess : Obligations.FrameOfRegisterAccess := by
  refine ⟨fun o v s t ho h => ?_, fun o s t h => ?_⟩
  · rw [exec_wr_other_next ho h]
    have other {r : Reg} (hr : r ≠ .reserved) (hoff : o ≠ offsetOf r) : regAt o ≠ r := regAt_ne_of_ne_offsetOf hr hoff
    exact ⟨rfl, rfl, rfl, fun _ => rfl, rfl, rfl, rfl,
      fun h => writeOperand_keyLen v s.opd (other nofun h), fun h => writeOperand_nonceLen v s.opd (other nofun h),
      fun h => writeOperand_bufAddrLo v s.opd (other nofun h), fun h => writeOperand_bufAddrHi v s.opd (other nofun h),
      fun h => writeOperand_bufLenLo v s.opd (other nofun h), fun h => writeOperand_bufLenHi v s.opd (other nofun h),
      fun _ h => writeOperand_key v s.opd (other nofun h), fun _ h => writeOperand_nonce v s.opd (other nofun h),
      fun _ h => writeOperand_tagIn v s.opd (other nofun h)⟩
  · rw [exec_rd_next h]
    exact ⟨rfl, rfl, rfl, rfl, fun _ => rfl, rfl, rfl, _, rfl⟩

/-- Settles O26, from the read-after-write laws and the uniqueness of the canonical form. -/
theorem memoryReadAfterWrite : Obligations.MemoryReadAfterWrite :=
  ⟨fun m a _ v hm => ⟨memRead_memWrite_same a v hm, memRead_memWrite_other m v, memWrite_wf a v hm⟩,
    fun _ _ => memory_ext⟩

/-- Settles O27: indices below BUF_LEN are below 2^64, so their addresses do not meet. -/
theorem bufferAddresses : Obligations.BufferAddresses := by
  intro o i j
  have hlen := bufLen_lt o
  exact ⟨bufAddr_toNat o, rfl, by rw [dmemAddr_toNat, bufAddr_toNat],
    fun hi hj => dmemAddr_inj (hi.trans hlen) (hj.trans hlen)⟩

/-- Settles O28: the step stores the byte where the address is populated. -/
theorem hostStoreReachesMemory : Obligations.HostStoreReachesMemory := by
  intro s a v rest hp hm
  rw [step_store hp]
  refine ⟨fun hvalid => ⟨memWrite s.dmem a v, if_pos hvalid, memRead_memWrite_same a v hm, fun b hb => ?_⟩,
    fun hvalid => if_neg (by simp [hvalid])⟩
  exact memRead_memWrite_other s.dmem v hb.symm

end

section
/-! The Block Engine: the quarter-round's value, inverse and independence, and the block: obligations O32 to O37. -/

open Sys2Proof Sys2Proof.Machine

namespace Sys2Proof.Machine

theorem words_ext {v w : Vector Word 16} (h : ∀ i : Fin 16, v[i] = w[i]) : v = w := Vector.ext fun i hi => h ⟨i, hi⟩

/-! ### The quarter-round word by word (R96) -/

section
variable {a b c d : Fin 16} (w : Vector Word 16)

/-- The twelve operations in sequence: each stage reads the words that the stages before it wrote. -/
theorem quarterRound_words (h : [a, b, c, d].Nodup) :
    let a1 := add32 w[a] w[b]; let d1 := rotl32 (xor32 w[d] a1) 16
    let c1 := add32 w[c] d1; let b1 := rotl32 (xor32 w[b] c1) 12
    let a2 := add32 a1 b1; let d2 := rotl32 (xor32 d1 a2) 8
    let c2 := add32 c1 d2; let b2 := rotl32 (xor32 b1 c2) 7
    (quarterRound a b c d w)[a] = a2 ∧ (quarterRound a b c d w)[b] = b2 ∧ (quarterRound a b c d w)[c] = c2 ∧
    (quarterRound a b c d w)[d] = d2 := by
  have hab : a ≠ b := by rintro rfl; simp at h
  have hac : a ≠ c := by rintro rfl; simp at h
  have had : a ≠ d := by rintro rfl; simp at h
  have hbc : b ≠ c := by rintro rfl; simp at h
  have hbd : b ≠ d := by rintro rfl; simp at h
  have hcd : c ≠ d := by rintro rfl; simp at h
  simp only [quarterRound, arxStage_get_added, arxStage_get_rotated, arxStage_get_other, ne_eq, hab, hac, had, hbd, hcd,
    hab.symm, hac.symm, hbc.symm, hbd.symm, hcd.symm, not_false_eq_true, and_self]

theorem quarterRound_other (h : [a, b, c, d].Nodup) {i : Fin 16} (hi : i ∉ [a, b, c, d]) :
    (quarterRound a b c d w)[i] = w[i] := by
  have had : a ≠ d := by rintro rfl; simp at h
  have hcb : c ≠ b := by rintro rfl; simp at h
  simp only [List.mem_cons, List.not_mem_nil, or_false, not_or] at hi
  obtain ⟨hia, hib, hic, hid⟩ := hi
  rw [quarterRound, arxStage_get_other hcb hic hib, arxStage_get_other had hia hid, arxStage_get_other hcb hic hib,
    arxStage_get_other had hia hid]

end

/-- On the all-zero state nothing is added, and rotation keeps 0. -/
theorem arxStage_zero (x y z : Fin 16) (n : Fin 32) : arxStage x y z n (Vector.replicate 16 0) = Vector.replicate 16 0 := by
  have hadd : add32 0#32 0#32 = 0#32 := rfl
  have hrot : rotl32 0#32 n = 0#32 := rotl32_zero n
  simp [arxStage, hadd, hrot]

theorem quarterRound_zero (a b c d : Fin 16) : quarterRound a b c d (Vector.replicate 16 0) = Vector.replicate 16 0 := by
  simp only [quarterRound, arxStage_zero]

/-! ### The inverse of a stage -/

/-- A stage undone: rotate back, exclusive OR with the sum that is still there, subtract. -/
def unstage (x y z : Fin 16) (n : Fin 32) (w : Vector Word 16) : Vector Word 16 :=
  (w.set z (xor32 (rotl32 w[z] (-n)) w[x])).set x (w[x] - w[y])

section
variable {x y z : Fin 16} (n : Fin 32) (w : Vector Word 16)

theorem unstage_get_added (y z : Fin 16) : (unstage x y z n w)[x] = w[x] - w[y] := Vector.getElem_set_self x.isLt

theorem unstage_get_rotated (hxz : x ≠ z) (y : Fin 16) : (unstage x y z n w)[z] = xor32 (rotl32 w[z] (-n)) w[x] := by
  simp [unstage, Fin.val_ne_of_ne hxz]

theorem unstage_get_other {i : Fin 16} (hix : i ≠ x) (hiz : i ≠ z) (y : Fin 16) : (unstage x y z n w)[i] = w[i] := by
  simp [unstage, Fin.val_ne_of_ne hix.symm, Fin.val_ne_of_ne hiz.symm]

/-- A distance and its negation make a whole turn. -/
theorem add_neg_mod_eq_zero : (n.val + (-n).val) % 32 = 0 := by
  have hneg : (-n).val = (32 - n.val) % 32 := Fin.val_neg' n
  omega

theorem rotl32_rotl32_neg (v : Word) : rotl32 (rotl32 v n) (-n) = v :=
  rotl32_rotl32_of_add_mod_eq_zero (add_neg_mod_eq_zero n) v

theorem rotl32_neg_rotl32 (v : Word) : rotl32 (rotl32 v (-n)) n = v :=
  rotl32_rotl32_of_add_mod_eq_zero (Nat.add_comm _ _ ▸ add_neg_mod_eq_zero n) v

theorem unstage_arxStage (hxy : x ≠ y) (hyz : y ≠ z) (hxz : x ≠ z) : unstage x y z n (arxStage x y z n w) = w := by
  refine words_ext fun i => ?_
  by_cases hix : i = x
  · subst hix
    rw [unstage_get_added, arxStage_get_added hxz, arxStage_get_other hxz hxy.symm hyz, add32, BitVec.add_sub_cancel]
  by_cases hiz : i = z
  · subst hiz
    rw [unstage_get_rotated n _ hxz, arxStage_get_added hxz, arxStage_get_rotated hxz, rotl32_rotl32_neg,
      xor32_xor32_cancel]
  · rw [unstage_get_other n _ hix hiz, arxStage_get_other hxz hix hiz]

theorem arxStage_unstage (hxy : x ≠ y) (hyz : y ≠ z) (hxz : x ≠ z) : arxStage x y z n (unstage x y z n w) = w := by
  have sum : add32 (unstage x y z n w)[x] (unstage x y z n w)[y] = w[x] := by
    rw [unstage_get_added, unstage_get_other n w hxy.symm hyz, add32, BitVec.sub_add_cancel]
  refine words_ext fun i => ?_
  by_cases hix : i = x
  · subst hix
    rw [arxStage_get_added hxz, sum]
  by_cases hiz : i = z
  · subst hiz
    rw [arxStage_get_rotated hxz, sum, unstage_get_rotated n w hxz, xor32_xor32_cancel, rotl32_neg_rotl32]
  · rw [arxStage_get_other hxz hix hiz, unstage_get_other n w hix hiz]

theorem arxStage_bijective (hxy : x ≠ y) (hyz : y ≠ z) (hxz : x ≠ z) : Function.Bijective (arxStage x y z n) :=
  Function.bijective_iff_has_inverse.2
    ⟨unstage x y z n, fun w => unstage_arxStage n w hxy hyz hxz, fun w => arxStage_unstage n w hxy hyz hxz⟩

end

/-- A quarter-round is four stages, each of which can be undone. -/
theorem quarterRound_bijective {a b c d : Fin 16} (h : [a, b, c, d].Nodup) : Function.Bijective (quarterRound a b c d) := by
  have hab : a ≠ b := by rintro rfl; simp at h
  have had : a ≠ d := by rintro rfl; simp at h
  have hbd : b ≠ d := by rintro rfl; simp at h
  have hbc : b ≠ c := by rintro rfl; simp at h
  have hcd : c ≠ d := by rintro rfl; simp at h
  have first (n : Fin 32) : Function.Bijective (arxStage a b d n) := arxStage_bijective n hab hbd had
  have second (n : Fin 32) : Function.Bijective (arxStage c d b n) := arxStage_bijective n hcd hbd.symm hbc.symm
  exact (second 7).comp ((first 8).comp ((second 12).comp (first 16)))

/-! ### Independence (R104) -/

/-- `f` changes only the words listed in `A`, and what it makes of them depends on nothing else. -/
structure LocalTo (A : List (Fin 16)) (f : Vector Word 16 → Vector Word 16) : Prop where
  frame : ∀ w, ∀ i ∉ A, (f w)[i] = w[i]
  determined : ∀ v w, (∀ i ∈ A, v[i] = w[i]) → ∀ i ∈ A, (f v)[i] = (f w)[i]

theorem LocalTo.comp {A : List (Fin 16)} {f g : Vector Word 16 → Vector Word 16} (hf : LocalTo A f) (hg : LocalTo A g) :
    LocalTo A (f ∘ g) :=
  ⟨fun w i hi => (hf.frame (g w) i hi).trans (hg.frame w i hi),
    fun v w h => hf.determined _ _ (hg.determined v w h)⟩

/-- On its own words each of two operations on disjoint words sees what it would see alone. -/
theorem LocalTo.comm {A B : List (Fin 16)} {f g : Vector Word 16 → Vector Word 16} (hf : LocalTo A f) (hg : LocalTo B g)
    (hAB : A.Disjoint B) : Function.Commute f g := by
  refine fun w => words_ext fun i => ?_
  by_cases hA : i ∈ A
  · have alone : ∀ j ∈ A, (g w)[j] = w[j] := fun j hj => hg.frame w j (hAB hj)
    rw [hf.determined _ _ alone i hA, hg.frame _ i (hAB hA)]
  · rw [hf.frame _ i hA]
    by_cases hB : i ∈ B
    · have alone : ∀ j ∈ B, (f w)[j] = w[j] := fun j hj => hf.frame w j fun hj' => hAB hj' hj
      rw [hg.determined _ _ alone i hB]
    · rw [hg.frame w i hB, hg.frame _ i hB, hf.frame w i hA]

theorem arxStage_localTo {A : List (Fin 16)} {x y z : Fin 16} (n : Fin 32) (hx : x ∈ A) (hy : y ∈ A) (hz : z ∈ A)
    (hxz : x ≠ z) : LocalTo A (arxStage x y z n) where
  frame w i hi := arxStage_get_other hxz (ne_of_mem_of_not_mem hx hi).symm (ne_of_mem_of_not_mem hz hi).symm y n w
  determined v w h i hi := by
    rw [arxStage_get x y z n v hxz, arxStage_get x y z n w hxz, h x hx, h y hy, h z hz, h i hi]

theorem quarterRound_localTo {a b c d : Fin 16} (had : a ≠ d) (hbc : b ≠ c) :
    LocalTo [a, b, c, d] (quarterRound a b c d) := by
  have first (n : Fin 32) : LocalTo [a, b, c, d] (arxStage a b d n) :=
    arxStage_localTo n (by simp) (by simp) (by simp) had
  have second (n : Fin 32) : LocalTo [a, b, c, d] (arxStage c d b n) :=
    arxStage_localTo n (by simp) (by simp) (by simp) hbc.symm
  exact (second 7).comp ((first 8).comp ((second 12).comp (first 16)))

theorem quarterRound_commute {a b c d a' b' c' d' : Fin 16} (h : [a, b, c, d, a', b', c', d'].Nodup) :
    Function.Commute (quarterRound a b c d) (quarterRound a' b' c' d') := by
  obtain ⟨h1, h2, hdisj⟩ := List.nodup_append'.1 (show ([a, b, c, d] ++ [a', b', c', d']).Nodup from h)
  have had : a ≠ d := by rintro rfl; simp at h1
  have hbc : b ≠ c := by rintro rfl; simp at h1
  have had' : a' ≠ d' := by rintro rfl; simp at h2
  have hbc' : b' ≠ c' := by rintro rfl; simp at h2
  exact (quarterRound_localTo had hbc).comm (quarterRound_localTo had' hbc') hdisj

/-- Four operations that commute in pairs may be done in the opposite order. -/
theorem reverse_of_commute {α : Type} {f g h k : α → α} (hfg : Function.Commute f g) (hfh : Function.Commute f h)
    (hfk : Function.Commute f k) (hgh : Function.Commute g h) (hgk : Function.Commute g k) (hhk : Function.Commute h k)
    (x : α) : f (g (h (k x))) = k (h (g (f x))) := by
  rw [hfg, hfh, hfk, hgh, hgk, hhk]

/-! ### The block (R94, R99 to R102) -/

theorem forUp_const {α : Type} (f : α → α) (n : Nat) (x : α) : forUp n (fun _ => f) x = f^[n] x := by
  induction n with
  | zero => rfl
  | succ n ih => rw [forUp_succ, ih, Function.iterate_succ_apply']

/-- Byte 4i + k of a block (R101, R102). -/
theorem block_getElem (key : Vector Byte 32) (nonce : Vector Byte 12) (ctr : Word) (i : Fin 16) (k : Fin 4) :
    (block key nonce ctr)[4 * i.val + k.val]'(by omega) =
      (leBytes32 (add32 (initState key nonce ctr)[i] (doubleRound^[10] (initState key nonce ctr))[i]))[k] := by
  rw [block, rounds20, forUp_const]
  refine (unpackWords_get_block _ i k i.isLt k.isLt).trans ?_
  rw [feedForward, Vector.getElem_zipWith]
  rfl

end Sys2Proof.Machine

/-- Settles O32: the stages word by word; the source's vector is computed from the four words it gives. -/
theorem quarterRoundEffect : Obligations.QuarterRoundEffect := by
  refine ⟨fun a b c d w h => ?_, fun w ha hb hc hd => ?_, quarterRound_zero⟩
  · obtain ⟨ha, hb, hc, hd⟩ := quarterRound_words w h
    exact ⟨ha, hb, hc, hd, fun i => quarterRound_other w h⟩
  · obtain ⟨ha', hb', hc', hd'⟩ := quarterRound_words (a := 2) (b := 7) (c := 8) (d := 13) w (by decide)
    have ha : w[(2 : Fin 16)] = _ := ha
    have hb : w[(7 : Fin 16)] = _ := hb
    have hc : w[(8 : Fin 16)] = _ := hc
    have hd : w[(13 : Fin 16)] = _ := hd
    rw [ha, hb, hc, hd] at ha' hb' hc' hd'
    exact ⟨ha'.trans (by decide), hb'.trans (by decide), hc'.trans (by decide), hd'.trans (by decide)⟩

/-- Settles O33. -/
theorem quarterRoundIsBijective : Obligations.QuarterRoundIsBijective :=
  fun _ _ _ _ => quarterRound_bijective

/-- Settles O34: quarter-rounds on disjoint registers commute, and the lanes of a round are disjoint in pairs. -/
theorem lanesAreIndependent : Obligations.LanesAreIndependent := by
  refine ⟨fun a b c d a' b' c' d' w h => quarterRound_commute h w, fun w => ⟨?_, ?_⟩⟩
  all_goals
    refine reverse_of_commute ?_ ?_ ?_ ?_ ?_ ?_ w <;> exact quarterRound_commute (by decide)

/-- Settles O35: packing undoes the unpacking of the registers, and each word is found at its place in the layout. -/
theorem initialState : Obligations.InitialState := by
  refine ⟨fun o ctr => ?_, by decide, by decide, by decide, by decide⟩
  simp only [initState_registers, stateWords_get]
  refine ⟨rfl, rfl, rfl, rfl, fun j => ?_, rfl, fun j => ?_⟩
  · rw [dif_neg (by omega), dif_pos (by omega)]
    simp
  · rw [dif_neg (by omega), dif_neg (by omega), dif_neg (by omega)]
    simp

/-- Settles O36. -/
theorem blockIsTenDoubleRounds : Obligations.BlockIsTenDoubleRounds :=
  ⟨fun _ => rfl, block_getElem⟩

/-- Settles O37: `Block` stores W and KS in one update (R95, R103). -/
theorem blockEngineFrame : Obligations.BlockEngineFrame := fun _ _ _ => rfl

end

section
/-! ENCRYPT: its counter, its closed form and what follows from that: obligations O40 to O44. -/

open Sys2Proof Sys2Proof.Machine

namespace Sys2Proof.Machine

/-! ### The counter (R124, R183) -/

/-- Where the lengths of key and nonce are accepted, only the length of the buffer is left to check. -/
theorem cipherCheck_eq_overflow_iff {o : OperandRegs} (h : lengthCheck o = none) :
    cipherCheck o = some .counterOverflow ↔ bufLen o > 274877906880 := by
  simp [cipherCheck, h, maxCipherLen]

/-- The accepted lengths are those with a block count of 32 bits. -/
theorem nBlocks_le_iff (len : Nat) : nBlocks len ≤ 0xFFFFFFFF ↔ len ≤ 274877906880 := by
  rw [nBlocks_eq_ceil]
  omega

/-- CTR after slice j of an accepted ENCRYPT is 1 + j as a number: it does not wrap. -/
theorem encryptSlice_ctr_toNat {o : OperandRegs} (hc : cipherCheck o = none) {j : Nat} (hj : j < nBlocks (bufLen o)) (s : State) :
    (encryptSlice o j s).eng.ctr.toNat = 1 + j := by
  have blocks : nBlocks (bufLen o) ≤ 0xFFFFFFFF := (nBlocks_le_iff _).2 (cipherCheck_eq_none_iff.1 hc).2
  rw [encryptSlice_ctr, BitVec.toNat_ofNat]
  omega

/-- The block loop ends with its last slice. -/
theorem encryptWork_ctr_toNat {o : OperandRegs} (hc : cipherCheck o = none) (hpos : 0 < bufLen o) (s : State) :
    (encryptWork o s).eng.ctr.toNat = nBlocks (bufLen o) := by
  obtain ⟨n, hn⟩ : ∃ n, nBlocks (bufLen o) = n + 1 :=
    Nat.exists_eq_succ_of_ne_zero (by rw [nBlocks_eq_ceil]; omega)
  have last : n < nBlocks (bufLen o) := by omega
  rw [encryptWork, hn, forUp_succ, encryptSlice_ctr_toNat hc last, Nat.add_comm]

/-! ### The closed form (R122, R125, R126) -/

/-- ENCRYPT with accepted lengths on a populated buffer completes with the transformed DMEM (R122). -/
theorem exec_encrypt_completes {s : State} (hk : s.opd.keyLen = 32) (hn : s.opd.nonceLen = 12)
    (hl : bufLen s.opd ≤ 274877906880)
    (hp : ∀ t, t < bufLen s.opd → dmemValid s.populated (dmemAddr s.opd t) = true) :
    exec .encrypt s = .next { s with status := 0x00000001, tagOut := Vector.replicate 4 0, opd := OperandRegs.zero,
                                     eng := Engine.zero, dmem := cipherMemory s.opd s.dmem } := by
  rw [exec_encrypt, cipherCheck_none hk hn hl]
  exact if_pos ((bufferPopulated_iff _ _).2 hp)

/-- An empty buffer has no block. -/
theorem cipherMemory_empty {o : OperandRegs} (h : bufLen o = 0) (m : Memory) : cipherMemory o m = m := by
  rw [cipherMemory, h]
  rfl

/-- The keystream cancels itself byte by byte, and memories in canonical form that read alike are equal. -/
theorem cipherMemory_cipherMemory (o : OperandRegs) {m : Memory} (hm : Memory.wf m = true) :
    cipherMemory o (cipherMemory o m) = m := by
  have hm' := cipherMemory_wf o hm
  refine memory_ext (cipherMemory_wf o hm') hm fun a => ?_
  by_cases ha : ∃ t, t < bufLen o ∧ dmemAddr o t = a
  · obtain ⟨t, ht, rfl⟩ := ha
    rw [cipherMemory_inside o hm' t ht, cipherMemory_inside o hm t ht, BitVec.xor_assoc, BitVec.xor_self, BitVec.xor_zero]
  · have outside : ∀ t, t < bufLen o → dmemAddr o t ≠ a := fun t ht h => ha ⟨t, ht, h⟩
    rw [cipherMemory_outside o _ a outside, cipherMemory_outside o m a outside]

end Sys2Proof.Machine

/-- Settles O40: an accepted length has at most 2^32 - 1 blocks, so no counter value wraps. -/
theorem counterNeverWraps : Obligations.CounterNeverWraps := by
  refine ⟨fun o h => ?_, fun o s hc => ⟨fun j hj => ?_, fun hpos => encryptWork_ctr_toNat hc hpos s⟩⟩
  · have blocks := nBlocks_le_iff (bufLen o)
    rw [cipherCheck_eq_overflow_iff h]
    exact ⟨Iff.rfl, by omega⟩
  · have hctr := encryptSlice_ctr_toNat hc hj s
    refine ⟨hctr, fun hzero => ?_, by rw [encryptSlice_ks, encryptSlice_ctr]⟩
    have zero_toNat : (0 : Word).toNat = 0 := rfl
    rw [hzero] at hctr
    omega

/-- Settles O41, with the transformed DMEM as the witness. -/
theorem encryptTransformsTheBuffer : Obligations.EncryptTransformsTheBuffer :=
  fun s hm hk hn hl hp => ⟨cipherMemory s.opd s.dmem, exec_encrypt_completes hk hn hl hp, cipherMemory_wf s.opd hm,
    cipherMemory_inside s.opd hm, cipherMemory_outside s.opd s.dmem⟩

/-- Settles O42: with the operands loaded again the same keystream is added twice; without, KEY_LEN is 0 (R169). -/
theorem encryptIsAnInvolution : Obligations.EncryptIsAnInvolution := by
  intro s hm hk hn hl hp
  refine ⟨_, _, exec_encrypt_completes hk hn hl hp, exec_encrypt_completes hk hn hl hp,
    cipherMemory_cipherMemory s.opd hm, ?_⟩
  have cleared : OperandRegs.zero.keyLen ≠ 32 := by decide
  exact (exec_transform_of_keyLen_ne (.inl rfl) cleared).trans (next_raiseError_of_status outcomeStatus_invalidKeyLength _)

/-- Settles O43: on a zero byte the exclusive OR leaves the keystream byte. -/
theorem encryptingZerosGivesTheKeystream : Obligations.EncryptingZerosGivesTheKeystream := by
  intro s hm hk hn hl hp hzero
  have keystream : ∀ t, t < bufLen s.opd →
      memRead (cipherMemory s.opd s.dmem) (dmemAddr s.opd t) = keystreamByte s.opd t := fun t ht => by
    rw [cipherMemory_inside s.opd hm t ht, hzero t ht]
    exact BitVec.zero_xor
  refine ⟨_, exec_encrypt_completes hk hn hl hp, rfl, keystream, fun h64 i => ?_⟩
  refine (keystream i (i.isLt.trans_eq h64.symm)).trans ?_
  have hdiv : i.val / 64 = 0 := Nat.div_eq_of_lt i.isLt
  have hmod : i.val % 64 = i.val := Nat.mod_eq_of_lt i.isLt
  simp [keystreamByte, hdiv, hmod]

/-- Settles O44: an empty buffer is populated, whatever is populated. -/
theorem emptyBufferEncrypt : Obligations.EmptyBufferEncrypt := by
  intro s hk hn hlen
  rw [exec_encrypt_completes hk hn (by omega) fun t ht => absurd ht (by omega), cipherMemory_empty hlen]

end

section
/-! The authenticator as arithmetic, and the commands TAG and VERIFY: obligations O45, O48, O49, O50, O53, O55, O56 and O57. -/

open Sys2Proof Sys2Proof.Machine

namespace Sys2Proof.Machine

/-! ### `le_int` and bit-wise AND -/

/-- AND of two numbers in base 2^8, digit by digit. -/
theorem and_base256 {x y : Nat} (hx : x < 2 ^ 8) (hy : y < 2 ^ 8) (a b : Nat) :
    (x + 2 ^ 8 * a) &&& (y + 2 ^ 8 * b) = (x &&& y) + 2 ^ 8 * (a &&& b) := by
  have hdiv : ((x + 2 ^ 8 * a) &&& (y + 2 ^ 8 * b)) / 2 ^ 8 = a &&& b := by
    rw [Nat.and_div_two_pow]
    congr 1 <;> omega
  have hmod : ((x + 2 ^ 8 * a) &&& (y + 2 ^ 8 * b)) % 2 ^ 8 = x &&& y := by
    rw [Nat.and_mod_two_pow]
    congr 1 <;> omega
  rw [← Nat.mod_add_div ((x + 2 ^ 8 * a) &&& (y + 2 ^ 8 * b)) (2 ^ 8), hdiv, hmod]

theorem leInt_zipWith_and (x y : List Byte) (h : x.length = y.length) :
    leInt (List.zipWith (· &&& ·) x y) = leInt x &&& leInt y := by
  induction x generalizing y with
  | nil => simp [leInt]
  | cons b x ih =>
    cases y with
    | nil => cases h
    | cons c y =>
      simp only [List.zipWith_cons_cons, leInt, ih y (Nat.succ.inj h), BitVec.toNat_and]
      exact (and_base256 b.isLt c.isLt _ _).symm

/-- A byte string of known length is determined by its integer. -/
theorem leInt_injective {x y : List Byte} (hlen : x.length = y.length) (h : leInt x = leInt y) : x = y :=
  List.ext_getElem hlen fun i hx hy => by rw [← leInt_byte x i hx, ← leInt_byte y i hy, h]

/-! ### Clamp (R137) -/

/-- The byte with which Clamp masks byte i. -/
def maskByte (i : Fin 16) : Byte :=
  if i.val ∈ [3, 7, 11, 15] then 0x0F else if i.val ∈ [4, 8, 12] then 0xFC else BitVec.allOnes 8

theorem clamp_getElem (b : Vector Byte 16) (i : Fin 16) : (clamp b)[i] = b[i] &&& maskByte i := by
  rw [Fin.getElem_fin, clamp, Vector.getElem_ofFn, maskByte]
  split_ifs
  · rfl
  · rfl
  · exact BitVec.and_allOnes.symm

theorem clamp_eq_zipWith (b : Vector Byte 16) : clamp b = Vector.zipWith (· &&& ·) b (Vector.ofFn maskByte) :=
  Vector.ext fun i hi => by
    rw [Vector.getElem_zipWith, Vector.getElem_ofFn]
    exact clamp_getElem b ⟨i, hi⟩

theorem leInt_maskBytes : leInt (Vector.ofFn maskByte).toList = 0x0ffffffc0ffffffc0ffffffc0fffffff := by decide

/-- Clamp as an AND of integers. -/
theorem leInt_clamp (b : Vector Byte 16) :
    leInt (clamp b).toList = leInt b.toList &&& 0x0ffffffc0ffffffc0ffffffc0fffffff := by
  rw [clamp_eq_zipWith, Vector.toList_zipWith, leInt_zipWith_and _ _ (by simp), leInt_maskBytes]

theorem clamp_clamp (b : Vector Byte 16) : clamp (clamp b) = clamp b :=
  Vector.ext fun i hi => by
    have once := clamp_getElem b ⟨i, hi⟩
    have twice := clamp_getElem (clamp b) ⟨i, hi⟩
    rw [once, BitVec.and_assoc, BitVec.and_self, ← once] at twice
    exact twice

/-! ### The value of a chunk (R139) -/

theorem chunkValue_eq_leInt (c : List Byte) : chunkValue c = leInt (c ++ [0x01]) := by
  rw [leInt_append]
  simp [chunkValue, leInt]

/-- The appended byte puts the value between two powers of 2. -/
theorem chunkValue_bounds (c : List Byte) :
    2 ^ (8 * c.length) ≤ chunkValue c ∧ chunkValue c < 2 ^ (8 * c.length + 1) := by
  have hlt := leInt_lt c
  unfold chunkValue
  omega

/-- So the value shows how long the chunk is, and what is left shows its bytes. -/
theorem chunkValue_injective {c d : List Byte} (h : chunkValue c = chunkValue d) : c = d := by
  obtain ⟨hc, hc'⟩ := chunkValue_bounds c
  obtain ⟨hd, hd'⟩ := chunkValue_bounds d
  have hcd : 8 * c.length < 8 * d.length + 1 := (Nat.pow_lt_pow_iff_right (by decide)).1 (hc.trans_lt (h ▸ hd'))
  have hdc : 8 * d.length < 8 * c.length + 1 := (Nat.pow_lt_pow_iff_right (by decide)).1 (hd.trans_lt (h ▸ hc'))
  have hlen : c.length = d.length := by omega
  refine leInt_injective hlen ?_
  rw [chunkValue, chunkValue, hlen] at h
  exact Nat.add_right_cancel h

/-- A chunk has at most 16 bytes, so its value is below 2^129. -/
theorem chunkValue_lt {c : List Byte} (h : c.length ≤ 16) : chunkValue c < 2 ^ 129 :=
  (chunkValue_bounds c).2.trans_le (Nat.pow_le_pow_right (by decide) (by omega))

/-! ### The tag (R141 to R144) -/

/-- Messages that agree below their length have the same tag: a chunk reads no byte beyond. -/
theorem macTag_congr {msg msg' : Nat → Byte} {len : Nat} (h : ∀ t, t < len → msg' t = msg t) (otk : Vector Byte 32) :
    macTag otk msg' len = macTag otk msg len := by
  have chunks : ∀ k, k < nChunks len → chunk msg' len k = chunk msg len k := fun k hk => by
    have hend := chunk_end hk
    refine List.map_congr_left fun i hi => h _ ?_
    rw [List.mem_range] at hi
    omega
  have acc (r : Nat) : accAfter msg' len r (nChunks len) = accAfter msg len r (nChunks len) :=
    forUp_congr (fun k a hk => by rw [chunks k hk]) 0
  simp only [macTag, acc]

/-- The tag as an integer: the polynomial in the clamped r, plus s, modulo 2^128. -/
theorem leInt_commandTag (s : State) :
    let ks := block (keyBytes s.opd) (nonceBytes s.opd) 0
    let r := leInt (ks.toList.take 16) &&& 0x0ffffffc0ffffffc0ffffffc0fffffff
    let q := nChunks (bufLen s.opd)
    leInt (commandTag s).toList =
      ((∑ k ∈ Finset.range q, chunkValue (chunk (messageByte s.opd s.dmem) (bufLen s.opd) k) * r ^ (q - k)) % polyP +
        leInt ((ks.toList.drop 16).take 16)) % 2 ^ 128 := by
  intro ks r q
  have hr : leInt (clamp (slice ks 0 16 (by decide))).toList = r := by
    rw [leInt_clamp, slice_toList, List.drop_zero]
  rw [commandTag, macTag, leInt_leBytes (Nat.mod_lt _ (Nat.two_pow_pos _)), slice_slice, slice_slice, accAfter_polynomial,
    slice_toList, ← hr]

/-- TAG with accepted lengths, where it answers, leaves the tag in TAGOUT and STATUS 1 (R145). -/
theorem exec_tag_next {s t : State} (hk : s.opd.keyLen = 32) (hn : s.opd.nonceLen = 12) (h : exec .tag s = .next t) :
    t.tagOut = packBytes (n := 4) (commandTag s) ∧ t.status = 0x00000001 := by
  rw [exec_tag, lengthCheck_none hk hn] at h
  dsimp only at h
  split at h
  · obtain rfl := Host.Outcome.next.inj h
    exact ⟨rfl, rfl⟩
  · cases h

/-! ### The comparison (R146, R147) -/

theorem ctEq_iff (x y : Vector Byte 16) : ctEq x y = true ↔ x = y := by
  have fold := ctEq_fold x y (List.finRange 16) 0#8
  rw [ctEq, beq_iff_eq, fold]
  exact ⟨fun ⟨_, h⟩ => Vector.ext fun i hi => h ⟨i, hi⟩ (List.mem_finRange _), fun h => h ▸ ⟨rfl, fun _ _ => rfl⟩⟩

/-- The expected tag equals a tag as bytes exactly when it does as registers. -/
theorem ctEq_tagInBytes_iff (tag : Vector Byte 16) (o : OperandRegs) :
    ctEq tag (tagInBytes o) = true ↔ o.tagIn = packBytes (n := 4) tag := by
  rw [ctEq_iff]
  constructor
  · rintro rfl
    exact (packBytes_unpackWords o.tagIn).symm
  · intro h
    rw [tagInBytes, h]
    exact (unpackWords_packBytes (n := 4) tag).symm

/-- VERIFY with accepted lengths on a populated buffer completes with the comparison's result (R147). -/
theorem exec_verify_completes {s : State} (hk : s.opd.keyLen = 32) (hn : s.opd.nonceLen = 12)
    (hp : ∀ t, t < bufLen s.opd → dmemValid s.populated (dmemAddr s.opd t) = true) :
    exec .verify s = .next { s with status := if s.opd.tagIn = packBytes (n := 4) (commandTag s) then 0x00000005 else 0x00000001,
                                    tagOut := Vector.replicate 4 0, opd := OperandRegs.zero, eng := Engine.zero } := by
  rw [exec_verify, lengthCheck_none hk hn]
  simp only [ctEq_tagInBytes_iff]
  exact if_pos ((bufferPopulated_iff _ _).2 hp)

end Sys2Proof.Machine

/-- Settles O45: each byte is masked with a byte of the mask, so the integer is masked with the integer of those bytes. -/
theorem clampMasksR : Obligations.ClampMasksR := by
  intro b
  have masked (i : Fin 16) {m : Byte} (hm : maskByte i = m) : (clamp b)[i] = b[i] &&& m := hm ▸ clamp_getElem b i
  have low : ∀ i : Fin 16, i ∈ [3, 7, 11, 15] → maskByte i = 0x0F := by decide
  have high : ∀ i : Fin 16, i ∈ [4, 8, 12] → maskByte i = 0xFC := by decide
  have full : ∀ i : Fin 16, i ∈ [0, 1, 2, 5, 6, 9, 10, 13, 14] → maskByte i = BitVec.allOnes 8 := by decide
  have le_mask : leInt (clamp b).toList ≤ 0x0ffffffc0ffffffc0ffffffc0fffffff := leInt_clamp b ▸ Nat.and_le_right
  refine ⟨fun i hi => masked i (low i hi), fun i hi => masked i (high i hi), fun i hi => ?_, leInt_clamp b, le_mask,
    le_mask.trans_lt (by decide), clamp_clamp b⟩
  rw [masked i (full i hi), BitVec.and_allOnes]

/-- Settles O48: the bounds and the injectivity of the value; the corner cases and examples are computed. -/
theorem chunkValueAppendsOneByte : Obligations.ChunkValueAppendsOneByte := by
  refine ⟨fun c => ?_, fun _ _ => chunkValue_injective, by decide, by decide, by decide, by decide, by decide, by decide⟩
  obtain ⟨lower, upper⟩ := chunkValue_bounds c
  refine ⟨rfl, chunkValue_eq_leInt c, lower, Nat.le_sub_one_of_lt upper, fun h16 => ?_⟩
  rw [h16] at lower upper
  exact ⟨lower, upper⟩

/-- Settles O49, from the loop over ACC alone and its polynomial. -/
theorem evaluateComputesThePolynomial : Obligations.EvaluateComputesThePolynomial := by
  intro msg len e
  rw [evaluate_acc]
  exact ⟨accAfter_polynomial msg len e.pr _, accAfter_lt msg len e.pr _, evaluate_pr msg len e, evaluate_ps msg len e⟩

/-- Settles O50: 2^130 + 2^129 bounds the sum, and times 2^124 that is below 2^255. -/
theorem absorbMagnitudes : Obligations.AbsorbMagnitudes := by
  intro c e _ hlen hacc hpr
  have hc := chunkValue_lt hlen
  have sum : e.acc + chunkValue c < 3 * 2 ^ 129 := by omega
  have product : (e.acc + chunkValue c) * e.pr < 2 ^ 255 :=
    calc (e.acc + chunkValue c) * e.pr ≤ 3 * 2 ^ 129 * 2 ^ 124 := Nat.mul_le_mul sum.le hpr.le
      _ < 2 ^ 255 := by decide
  exact ⟨sum, product, rfl, Nat.mod_lt _ polyP_pos⟩

/-- Settles O53: TAGOUT carries the bytes of the tag, whose integer is the polynomial plus s. -/
theorem tagComputesTheAuthenticator : Obligations.TagComputesTheAuthenticator := by
  intro s hk hn hp
  refine ⟨packBytes (n := 4) (commandTag s), exec_tag_completes hk hn hp, ?_⟩
  rw [unpackWords_packBytes (n := 4)]
  exact leInt_commandTag s

/-- Settles O55: the tag reads the key, the nonce and the message, which agree. -/
theorem tagDoesNotDependOnPlacement : Obligations.TagDoesNotDependOnPlacement := by
  intro s s' t t' hkey hnonce hlen hmsg hk hn hk' hn' h h'
  have sameTag : commandTag s' = commandTag s := by
    have hkb : keyBytes s'.opd = keyBytes s.opd := congrArg unpackWords hkey
    have hnb : nonceBytes s'.opd = nonceBytes s.opd := congrArg unpackWords hnonce
    rw [commandTag, hkb, hnb, hlen]
    exact macTag_congr hmsg _
  obtain ⟨htag, hstatus⟩ := exec_tag_next hk hn h
  obtain ⟨htag', hstatus'⟩ := exec_tag_next hk' hn' h'
  exact ⟨by rw [htag', htag, sameTag], hstatus'.trans hstatus.symm⟩

/-- Settles O56: an OR of byte differences is 0 exactly when every pair is equal. -/
theorem compareIsEquality : Obligations.CompareIsEquality := ctEq_iff

/-- Settles O57: VERIFY compares TAGIN with the tag that TAG, completing on the same state, packs into TAGOUT. -/
theorem verifyAgreesWithTag : Obligations.VerifyAgreesWithTag :=
  fun _ hk hn hp => ⟨_, exec_tag_completes hk hn hp, exec_verify_completes hk hn hp⟩

end
